-- ==== Sys2Proof/Word.lean ====
section
/-! DEFINITION. The word types of the block (00_scope.md section 5): every value is an unsigned integer of 8, 16 or 32 bits
or a finite byte string. -/

namespace Sys2Proof

/-- `u8`: an unsigned integer of 8 bits. -/
abbrev Byte := BitVec 8

/-- `u16`: an unsigned integer of 16 bits. -/
abbrev U16 := BitVec 16

/-- `u32`: an unsigned integer of 32 bits. -/
abbrev U32 := BitVec 32

/-- `Bytes`: a finite sequence of `u8`; `b.length` is the spec's `|b|`. -/
abbrev Bytes := List Byte

end Sys2Proof
end

