-- ==== Sys2Proof/Machine/Bytes.lean ====
section
/-! DEFINITION. The little-endian helpers and the operand read of the pseudocode (00_scope.md R10, R11), on which every multi-byte
field of the wire and of the command encoding rests (20_memory.md R28, R29). -/

namespace Sys2Proof

/-- `b[i]`. The rules read only indices below `|b|`; the value outside is never used (notes/assumptions/10.md). -/
def byteAt (b : Bytes) (i : Nat) : Byte := b.getD i 0

/-- `le16(b, off)`: the byte at `off` is the least significant (R10). -/
def le16 (b : Bytes) (off : Nat) : U16 :=
  (byteAt b off).setWidth 16 ||| ((byteAt b (off + 1)).setWidth 16 <<< 8)

/-- `le32(b, off)`: the byte at `off` is the least significant (R10). -/
def le32 (b : Bytes) (off : Nat) : U32 :=
  (byteAt b off).setWidth 32 ||| ((byteAt b (off + 1)).setWidth 32 <<< 8)
    ||| ((byteAt b (off + 2)).setWidth 32 <<< 16) ||| ((byteAt b (off + 3)).setWidth 32 <<< 24)

/-- `bytes16(v) = [v[7:0], v[15:8]]` (R10). -/
def bytes16 (v : U16) : Bytes := [v.extractLsb' 0 8, v.extractLsb' 8 8]

/-- `bytes32(v) = [v[7:0], v[15:8], v[23:16], v[31:24]]` (R10). -/
def bytes32 (v : U32) : Bytes :=
  [v.extractLsb' 0 8, v.extractLsb' 8 8, v.extractLsb' 16 8, v.extractLsb' 24 8]

end Sys2Proof
end

