-- ==== Sys2Proof/Syntax.lean ====
section
/-! DEFINITION. The instructions: the 15 commands of command set version 1 (30_encoding.md R56), one constructor for each row of
spec/opcode_table.json, with the operands of its format (R53) in the format's order. -/

namespace Sys2Proof

/-- A command after decoding. Masking of operands is the command's own work, not the decoder's (R54), so every operand is held raw.
The `n` of a format V command is the length of its byte string (R55). -/
inductive Instr where
  /-- 0x01 `SID_PACK dir, dev` (R69). -/
  | sidPack (dir dev : U16)
  /-- 0x02 `SID_UNPACK sid` (R70). -/
  | sidUnpack (sid : U16)
  /-- 0x03 `SID_ENCODE sid` (R71). -/
  | sidEncode (sid : U16)
  /-- 0x04 `SID_DECODE [..]` (R72). -/
  | sidDecode (buf : Bytes)
  /-- 0x05 `HB2_PACK w, s` (R73). -/
  | hb2Pack (w s : Byte)
  /-- 0x06 `HB2_UNPACK hb2` (R74). -/
  | hb2Unpack (hb2 : Byte)
  /-- 0x07 `HB2_ENCODE hb2` (R75). -/
  | hb2Encode (hb2 : Byte)
  /-- 0x08 `HB2_DECODE [..]` (R76). -/
  | hb2Decode (buf : Bytes)
  /-- 0x10 `HDR_BUILD kind, sid, dir, dev, hb2, w, stream, fn, sys` (R79); `kind` may be any byte. -/
  | hdrBuild (kind : Byte) (sid dir dev : U16) (hb2 w stream fn : Byte) (sys : U32)
  /-- 0x11 `HDR_DECODE [..]` (R82). -/
  | hdrDecode (buf : Bytes)
  /-- 0x12 `HDR_ENCODE` (R83). -/
  | hdrEncode
  /-- 0x13 `RESOLVE_KIND` (R84). -/
  | resolveKind
  /-- 0x20 `MSG_BUILD [..]` (R89). -/
  | msgBuild (body : Bytes)
  /-- 0x21 `FRAME_ENCODE` (R91). -/
  | frameEncode
  /-- 0x22 `FRAME_DECODE [..]` (R93). -/
  | frameDecode (buf : Bytes)
deriving DecidableEq, Repr

end Sys2Proof
end

