-- ==== Sys2Proof/WellFormed.lean ====
section
/-! DEFINITION. Which instructions have an encoding. Every operand of a fixed format fills its field; the byte string of a
format V command must have a length that its 32-bit field `n` can hold (30_encoding.md R53). Capacity (R59) is not a matter of form:
it depends on the block's parameters and is checked when the command runs. -/

namespace Sys2Proof

/-- The byte string fits the field `n : u32` of format V (R53). -/
def Bytes.fitsLengthField (buf : Bytes) : Bool := decide (buf.length < 4294967296)

/-- The instruction has an encoding. -/
def Instr.wellFormed : Instr → Bool
  | .sidPack _ _ => true
  | .sidUnpack _ => true
  | .sidEncode _ => true
  | .sidDecode buf => Bytes.fitsLengthField buf
  | .hb2Pack _ _ => true
  | .hb2Unpack _ => true
  | .hb2Encode _ => true
  | .hb2Decode buf => Bytes.fitsLengthField buf
  | .hdrBuild _ _ _ _ _ _ _ _ _ => true
  | .hdrDecode buf => Bytes.fitsLengthField buf
  | .hdrEncode => true
  | .resolveKind => true
  | .msgBuild body => Bytes.fitsLengthField body
  | .frameEncode => true
  | .frameDecode buf => Bytes.fitsLengthField buf

end Sys2Proof
end

