-- ==== Sys2Proof/Decode.lean ====
section
/-! DEFINITION. The command encoding (30_encoding.md Part B): opcodes, formats, the decoder of a transaction's bytes, total on every byte
string and rejecting by name, and the encoder. -/

namespace Sys2Proof

/-- The opcodes of command set version 1 by name, one for each row of R56. -/
inductive Opcode where
  | sidPack | sidUnpack | sidEncode | sidDecode
  | hb2Pack | hb2Unpack | hb2Encode | hb2Decode
  | hdrBuild | hdrDecode | hdrEncode | resolveKind
  | msgBuild | frameEncode | frameDecode
deriving DecidableEq, Repr

/-- The command formats (R53). -/
inductive Format where
  | n | s1 | s2 | b1 | b2 | v | k
deriving DecidableEq, Repr

/-- Why the decoder rejects a transaction (R60). The block answers each with the status of the same name and writes no state. -/
inductive DecodeError where
  /-- Empty transaction, or a length that is not the format's (R58). -/
  | malformedCommand
  /-- The first byte is no opcode of R56 (R57). -/
  | illegalOpcode
deriving DecidableEq, Repr

/-- What the decoder answers. -/
inductive Decoded where
  | instr (i : Instr)
  | rejected (e : DecodeError)
deriving DecidableEq, Repr

/-- Every opcode, in the order of R56. -/
def Opcode.all : List Opcode :=
  [.sidPack, .sidUnpack, .sidEncode, .sidDecode, .hb2Pack, .hb2Unpack, .hb2Encode, .hb2Decode,
   .hdrBuild, .hdrDecode, .hdrEncode, .resolveKind, .msgBuild, .frameEncode, .frameDecode]

/-- The opcode byte (R56). -/
def Opcode.byte : Opcode → Byte
  | .sidPack => 0x01
  | .sidUnpack => 0x02
  | .sidEncode => 0x03
  | .sidDecode => 0x04
  | .hb2Pack => 0x05
  | .hb2Unpack => 0x06
  | .hb2Encode => 0x07
  | .hb2Decode => 0x08
  | .hdrBuild => 0x10
  | .hdrDecode => 0x11
  | .hdrEncode => 0x12
  | .resolveKind => 0x13
  | .msgBuild => 0x20
  | .frameEncode => 0x21
  | .frameDecode => 0x22

/-- The format of a command (R56). -/
def Opcode.format : Opcode → Format
  | .sidPack => .s2
  | .sidUnpack => .s1
  | .sidEncode => .s1
  | .sidDecode => .v
  | .hb2Pack => .b2
  | .hb2Unpack => .b1
  | .hb2Encode => .b1
  | .hb2Decode => .v
  | .hdrBuild => .k
  | .hdrDecode => .v
  | .hdrEncode => .n
  | .resolveKind => .n
  | .msgBuild => .v
  | .frameEncode => .n
  | .frameDecode => .v

/-- The opcode a first byte stands for; none for the illegal values of R57. -/
def Opcode.ofByte (b : Byte) : Option Opcode := Opcode.all.find? (fun o => o.byte == b)

/-- The length of a command of the format, in bytes; `n` matters to format V only (R53). -/
def Format.commandLength (f : Format) (n : Nat) : Nat :=
  match f with
  | .n => 1
  | .s1 => 3
  | .s2 => 5
  | .b1 => 2
  | .b2 => 3
  | .v => 5 + n
  | .k => 16

/-- The transaction has the length of its format. Format V needs 5 bytes before `n` can be read (R55, R60). -/
def Format.lengthRight (f : Format) (c : Bytes) : Bool :=
  match f with
  | .v => decide (5 ≤ c.length) && c.length == f.commandLength (le32 c 1).toNat
  | _ => c.length == f.commandLength 0

/-- The operands of a command of the right length, each the unsigned little-endian value of its bytes, unmasked (R53, R54). -/
def Opcode.operands (o : Opcode) (c : Bytes) : Instr :=
  match o with
  | .sidPack => .sidPack (le16 c 1) (le16 c 3)
  | .sidUnpack => .sidUnpack (le16 c 1)
  | .sidEncode => .sidEncode (le16 c 1)
  | .sidDecode => .sidDecode (c.drop 5)
  | .hb2Pack => .hb2Pack (byteAt c 1) (byteAt c 2)
  | .hb2Unpack => .hb2Unpack (byteAt c 1)
  | .hb2Encode => .hb2Encode (byteAt c 1)
  | .hb2Decode => .hb2Decode (c.drop 5)
  | .hdrBuild =>
    .hdrBuild (byteAt c 1) (le16 c 2) (le16 c 4) (le16 c 6) (byteAt c 8) (byteAt c 9) (byteAt c 10) (byteAt c 11) (le32 c 12)
  | .hdrDecode => .hdrDecode (c.drop 5)
  | .hdrEncode => .hdrEncode
  | .resolveKind => .resolveKind
  | .msgBuild => .msgBuild (c.drop 5)
  | .frameEncode => .frameEncode
  | .frameDecode => .frameDecode (c.drop 5)

/-- The decode checks of R60 in their order: empty, opcode, length; then the operands. The capacity check of R60 needs the block's
parameters and is made when the command runs. -/
def decode (c : Bytes) : Decoded :=
  match c with
  | [] => .rejected .malformedCommand
  | op :: _ =>
    match Opcode.ofByte op with
    | none => .rejected .illegalOpcode
    | some o => if o.format.lengthRight c then .instr (o.operands c) else .rejected .malformedCommand

/-- The opcode of an instruction (R56). -/
def Instr.opcode : Instr → Opcode
  | .sidPack _ _ => .sidPack
  | .sidUnpack _ => .sidUnpack
  | .sidEncode _ => .sidEncode
  | .sidDecode _ => .sidDecode
  | .hb2Pack _ _ => .hb2Pack
  | .hb2Unpack _ => .hb2Unpack
  | .hb2Encode _ => .hb2Encode
  | .hb2Decode _ => .hb2Decode
  | .hdrBuild _ _ _ _ _ _ _ _ _ => .hdrBuild
  | .hdrDecode _ => .hdrDecode
  | .hdrEncode => .hdrEncode
  | .resolveKind => .resolveKind
  | .msgBuild _ => .msgBuild
  | .frameEncode => .frameEncode
  | .frameDecode _ => .frameDecode

/-- The fields after the opcode of a format V command: `n:u32@1`, then `buf` (R53). -/
def encodeBuffer (buf : Bytes) : Bytes := bytes32 (BitVec.ofNat 32 buf.length) ++ buf

/-- The bytes after the opcode, in the order of the format (R53). -/
def Instr.operandBytes : Instr → Bytes
  | .sidPack dir dev => bytes16 dir ++ bytes16 dev
  | .sidUnpack sid => bytes16 sid
  | .sidEncode sid => bytes16 sid
  | .sidDecode buf => encodeBuffer buf
  | .hb2Pack w s => [w, s]
  | .hb2Unpack hb2 => [hb2]
  | .hb2Encode hb2 => [hb2]
  | .hb2Decode buf => encodeBuffer buf
  | .hdrBuild kind sid dir dev hb2 w stream fn sys =>
    kind :: (bytes16 sid ++ bytes16 dir ++ bytes16 dev ++ [hb2, w, stream, fn] ++ bytes32 sys)
  | .hdrDecode buf => encodeBuffer buf
  | .hdrEncode => []
  | .resolveKind => []
  | .msgBuild body => encodeBuffer body
  | .frameEncode => []
  | .frameDecode buf => encodeBuffer buf

/-- The transaction of an instruction (R52, R53): the right one for every well-formed instruction. -/
def encode (i : Instr) : Bytes := i.opcode.byte :: i.operandBytes

/-- Byte `k` of a number whose bit 0 is the least significant bit of the first byte. -/
def wordByte (w k : Nat) : Byte := BitVec.ofNat 8 (w / 256 ^ k)

/-- The transaction whose bits are `w`, numbered as spec/opcode_table.json numbers them (bit 0 is the least significant bit of the first
byte). Bits above `nbits` are 0, and the transaction is as long as its opcode's format makes it (R55), or as the `nbits` bits
given when that is longer (notes/assumptions/9.md). -/
def tableBytes (nbits w : Nat) : Bytes :=
  let v := w % 2 ^ nbits
  let given := (nbits + 7) / 8
  let length :=
    match Opcode.ofByte (wordByte v 0) with
    | none => 1
    | some o => o.format.commandLength (v / 256 % 4294967296)
  (List.range (max given length)).map (wordByte v)

/-- What this decoder reads from the instruction whose bits are `w` in the numbering of spec/opcode_table.json. -/
def decodeTableWord (nbits w : Nat) : Option Instr :=
  match decode (tableBytes nbits w) with
  | .instr i => some i
  | .rejected _ => none

end Sys2Proof
end

