-- ==== Sys2Proof/Config.lean ====
section
/-! DEFINITION. The implementation parameters of 00_scope.md section 4 (R6, R8). Each is fixed when a block is
instantiated; the spec leaves them OPEN. -/

namespace Sys2Proof

/-- What an instantiation of the block fixes (R6, R8, R9). No command reads these as state or writes them (R20), and reset does
not change them (R112). -/
structure Params where
  /-- `BODY_MAX`, the capacity of the body register in bytes: `0 <= BODY_MAX <= 2^32 - 11` (R6). -/
  bodyMax : Fin 4294967286
  /-- `STRICT_LENGTH_CHECK` (R8). -/
  strictLengthCheck : Bool
deriving DecidableEq, Repr

/-- The `BODY_MAX` of the block that `State.reset` describes. The spec gives it no value and says that none may be assumed (R6, N3), so
nothing in Lean can evaluate it (notes/assumptions/1.md). -/
opaque Config.bodyMax : Fin 4294967286

/-- The parameters of the block that `State.reset` describes: an unknown `BODY_MAX`, and the default `false` of `STRICT_LENGTH_CHECK` (R8). -/
def Config.params : Params := { bodyMax := Config.bodyMax, strictLengthCheck := false }

end Sys2Proof
end

