-- ==== Sys2Proof/Machine/State.lean ====
section
/-! DEFINITION. The machine's state: the spec's record (10_state.md R13), the parameters of the instance (00_scope.md R6, R8), and the two ends
of the command port, which the host owns (R4). Plain data throughout. -/

namespace Sys2Proof.Machine

/-- `Header` (R14). Every field holds any value of its width; none is hardwired. -/
structure Header where
  /-- SessionID: bit 15 direction, bits 14 to 0 device id (R44). -/
  sid : U16
  /-- HeaderByte2: bit 7 W-Bit, bits 6 to 0 Stream (R46). -/
  hb2 : Byte
  /-- The function byte, HeaderByte3 (R47). -/
  fn : Byte
  /-- P-Type (R47). -/
  pt : Byte
  /-- S-Type, the message-kind discriminant (R48). -/
  st : Byte
  /-- SystemBytes (R47). -/
  sys : U32
deriving DecidableEq, Repr

/-- The all-zero header: the model's contents of a header register after reset, which the spec leaves unspecified and which no response
shows while the valid bit is 0 (R24, R26; notes/assumptions/2.md). -/
def Header.zero : Header := { sid := 0, hb2 := 0, fn := 0, pt := 0, st := 0, sys := 0 }

/-- The block's state, the record of R13: "Nothing else is state". -/
structure Block where
  /-- `HDR_VALID` (R15). -/
  hdrValid : Bool
  /-- `HDR`, the header unit's register (R15). -/
  hdr : Header
  /-- `MSG_VALID` (R16). -/
  msgValid : Bool
  /-- `MSG_LEN`, the message's length field (R16). -/
  msgLen : U32
  /-- `MSG_HDR`, the message's own copy of its header (R16). -/
  msgHdr : Header
  /-- `MSG_BODY` (R16). -/
  msgBody : Bytes
deriving DecidableEq, Repr

/-- The block after reset (R26, R111): both valid bits 0. The contents of the registers are unspecified by the spec; zero and the empty body are the
model's choice (notes/assumptions/2.md). -/
def Block.reset : Block :=
  { hdrValid := false, hdr := Header.zero, msgValid := false, msgLen := 0, msgHdr := Header.zero, msgBody := [] }

/-- What the host presents to the block. -/
inductive Input where
  /-- One transaction: a command byte string, delimited by the transaction (R51). -/
  | command (c : Bytes)
  /-- The reset input, which takes effect between two transactions (R111). -/
  | reset
deriving DecidableEq, Repr

/-- The machine. -/
structure State where
  /-- The instance's parameters. Not state of the spec (R13, R20): no step changes them. -/
  params : Params
  /-- The spec's state (R13). -/
  block : Block
  /-- What the host has presented and the block has not yet accepted, next first (R4, R18, R38). -/
  inputs : List Input
  /-- The responses given so far, oldest first (R51, R114). -/
  responses : List Bytes
deriving DecidableEq, Repr

/-- The block has no trap, panic, halt or stuck state (R102, R109): nothing raises a fault, so there is no constructor (safe:
every transaction is answered; notes/assumptions/11.md). -/
inductive Fault
deriving DecidableEq, Repr

/-- Why the model gives an instruction no meaning. -/
inductive Refusal where
  /-- Raised by an arm of `exec` whose instruction the model has not reached; no arm does (safe: the model stops where the block goes on). -/
  | notModelled (mnemonic : String)
deriving DecidableEq, Repr

/-- A block of the given parameters right after reset (R26), with nothing presented and nothing answered. -/
def State.resetWith (p : Params) : State :=
  { params := p, block := Block.reset, inputs := [], responses := [] }

/-- The machine right after reset (R26), for the parameters of `Config`: `BODY_MAX` unknown, `STRICT_LENGTH_CHECK` at its default. -/
def State.reset : State := State.resetWith Config.params

end Sys2Proof.Machine
end

