-- ==== Sys2Proof/Machine/Operands.lean ====
section
/-! DEFINITION. The pure functions the command rules apply to their operands: the masks of the two bit codecs, the wire layout of
header and frame, and the message-kind dispatch multiplexer. -/

namespace Sys2Proof.Machine

/-- `sid_pack(dir, dev)`: only bit 15 of `dir` and bits 14 to 0 of `dev` are kept (R45, R69). -/
def sidPack (dir dev : U16) : U16 := (dir &&& 0x8000) ||| (dev &&& 0x7FFF)

/-- `sid_unpack(sid)`: direction in place, and device id (R70). -/
def sidUnpack (sid : U16) : U16 × U16 := (sid &&& 0x8000, sid &&& 0x7FFF)

/-- `hb2_pack(w, s)`: only bit 7 of `w` and bits 6 to 0 of `s` are kept (R46, R73). -/
def hb2Pack (w s : Byte) : Byte := (w &&& 0x80) ||| (s &&& 0x7F)

/-- `hb2_unpack(h)`: W-Bit in place, and Stream (R74). -/
def hb2Unpack (h : Byte) : Byte × Byte := (h &&& 0x80, h &&& 0x7F)

/-- `hdr_bytes(h)`: the header's 10 wire bytes (R43). -/
def hdrBytes (h : Header) : Bytes := bytes16 h.sid ++ [h.hb2, h.fn, h.pt, h.st] ++ bytes32 h.sys

/-- `hdr_decode(b)`, for `|b| >= 10`: no field is checked (R82). -/
def hdrDecode (b : Bytes) : Header :=
  { sid := le16 b 0, hb2 := byteAt b 2, fn := byteAt b 3, pt := byteAt b 4, st := byteAt b 5, sys := le32 b 6 }

/-- `frame_bytes(L, h, body)`: length, header, body (R42, R91). -/
def frameBytes (len : U32) (h : Header) (body : Bytes) : Bytes := bytes32 len ++ hdrBytes h ++ body

/-- The nine message kinds (R48): the enumeration is closed. -/
inductive MessageKind where
  | data | selectReq | selectRsp | deselectReq | deselectRsp | linktestReq | linktestRsp | rejectReq | separateReq
deriving DecidableEq, Repr

/-- The S-Type of a kind (R48). -/
def MessageKind.sType : MessageKind → Byte
  | .data => 0
  | .selectReq => 1
  | .selectRsp => 2
  | .deselectReq => 3
  | .deselectRsp => 4
  | .linktestReq => 5
  | .linktestRsp => 6
  | .rejectReq => 7
  | .separateReq => 9

/-- Every kind. -/
def MessageKind.all : List MessageKind :=
  [.data, .selectReq, .selectRsp, .deselectReq, .deselectRsp, .linktestReq, .linktestRsp, .rejectReq, .separateReq]

/-- The kind of an S-Type; none outside `KINDS` (R48). -/
def MessageKind.ofSType (b : Byte) : Option MessageKind := MessageKind.all.find? (fun k => k.sType == b)

/-- The dispatch multiplexer `hdr_build` (R80): P-Type 0, S-Type the kind, SystemBytes passed through; SessionID, HeaderByte2 and
function byte selected by the kind. Only the data row masks. -/
def hdrBuild (k : MessageKind) (sid dir dev : U16) (hb2 w stream fn : Byte) (sys : U32) : Header :=
  match k with
  | .data => { sid := sidPack dir dev, hb2 := hb2Pack w stream, fn := fn, pt := 0, st := k.sType, sys := sys }
  | .selectRsp | .deselectRsp => { sid := sid, hb2 := 0, fn := fn, pt := 0, st := k.sType, sys := sys }
  | .rejectReq => { sid := sid, hb2 := hb2, fn := fn, pt := 0, st := k.sType, sys := sys }
  | .selectReq | .deselectReq | .linktestReq | .linktestRsp | .separateReq =>
    { sid := 0xFFFF, hb2 := 0, fn := 0, pt := 0, st := k.sType, sys := sys }

end Sys2Proof.Machine
end

