-- ==== Sys2Proof/Machine/Flags.lean ====
section
/-! DEFINITION. The status byte. The block keeps no flags (10_state.md R19): a command's outcome is the first byte of its own response
(60_exceptions.md R97, 30_encoding.md R61), which no later command reads. -/

namespace Sys2Proof.Machine

/-- The status codes (R97). -/
inductive Status where
  | ok
  | tooShort
  /-- In the table, but no rule produces it (R94). -/
  | headerDecodeError
  | unknownMessageKind
  | sizeError
  | lengthMismatch
  | illegalOpcode
  | malformedCommand
  | notInitialised
  | capacityExceeded
deriving DecidableEq, Repr

/-- The code of a status (R97). -/
def Status.code : Status → Byte
  | .ok => 0x00
  | .tooShort => 0x01
  | .headerDecodeError => 0x02
  | .unknownMessageKind => 0x03
  | .sizeError => 0x04
  | .lengthMismatch => 0x05
  | .illegalOpcode => 0x80
  | .malformedCommand => 0x81
  | .notInitialised => 0x82
  | .capacityExceeded => 0x83

/-- A response: `[status] ++ payload` (R61). -/
def response (st : Status) (payload : Bytes) : Bytes := st.code :: payload

end Sys2Proof.Machine
end

