-- ==== Sys2Proof/Machine/Ops.lean ====
section
/-! DEFINITION. The shared operations: ending a command (`respond`, `raise`), the register writes, the checks that several commands make, and
reset. The block takes no traps (60_exceptions.md R102): an error is a response that writes no state, and `raise` is that one operation. -/

namespace Sys2Proof.Machine

/-- `respond(s, p)`: ends the command with the response `[s] ++ p` (R11). -/
def respond (st : Status) (payload : Bytes) (s : State) : Host.Outcome State Fault Refusal :=
  .next { s with responses := s.responses ++ [response st payload] }

/-- `raise E(info)`: ends the command with `respond(E, info)` and writes no state (R11, R98). -/
def raise (e : Status) (info : Bytes) (s : State) : Host.Outcome State Fault Refusal := respond e info s

/-- `HDR <- h; HDR_VALID <- 1` (R15). -/
def writeHdr (h : Header) (s : State) : State :=
  { s with block := { s.block with hdr := h, hdrValid := true } }

/-- `MSG_LEN <- L; MSG_HDR <- h; MSG_BODY <- body; MSG_VALID <- 1`: the message register is written whole (R16). -/
def writeMsg (len : U32) (h : Header) (body : Bytes) (s : State) : State :=
  { s with block := { s.block with msgLen := len, msgHdr := h, msgBody := body, msgValid := true } }

/-- `INPUT_MAX = 14 + BODY_MAX` (R7). -/
def inputMax (p : Params) : Nat := 14 + p.bodyMax.val

/-- The capacity check of R59 and R60, made before the command's own rule: an operand of more than `cap` bytes is turned away. -/
def withinCapacity (cap : Nat) (buf : Bytes) (s : State) (rule : Host.Outcome State Fault Refusal) :
    Host.Outcome State Fault Refusal :=
  if cap < buf.length then raise .capacityExceeded [] s else rule

/-- Reads `HDR`; `NOT_INITIALISED` when `HDR_VALID = 0` (R24, R97). -/
def readHdr (s : State) (rule : Header → Host.Outcome State Fault Refusal) : Host.Outcome State Fault Refusal :=
  if s.block.hdrValid then rule s.block.hdr else raise .notInitialised [] s

/-- Reads the message register; `NOT_INITIALISED` when `MSG_VALID = 0` (R24, R97). -/
def readMsg (s : State) (rule : U32 → Header → Bytes → Host.Outcome State Fault Refusal) :
    Host.Outcome State Fault Refusal :=
  if s.block.msgValid then rule s.block.msgLen s.block.msgHdr s.block.msgBody else raise .notInitialised [] s

/-- The status with which the block answers a transaction its decoder rejects (R57, R58). -/
def decodeErrorStatus : DecodeError → Status
  | .malformedCommand => .malformedCommand
  | .illegalOpcode => .illegalOpcode

/-- A rejected transaction is answered and writes no state (R57, R58). -/
def rejectCommand (e : DecodeError) (s : State) : Host.Outcome State Fault Refusal := raise (decodeErrorStatus e) [] s

/-- The reset input: the state becomes that of R26; the parameters stay (R112), no response is produced (R111), and what the host has
presented after the reset stays presented. -/
def resetBlock (s : State) : State := { s with block := Block.reset }

/-- The host presents a command transaction next, before whatever else it has presented. -/
def presentNext (c : Bytes) (s : State) : State := { s with inputs := .command c :: s.inputs }

/-- The block accepts what stands first: the rest stays presented (R38). -/
def acceptInput (rest : List Input) (s : State) : State := { s with inputs := rest }

/-- A program is a list of command transactions issued from the reset state (R114). -/
def programStart (p : Params) (program : List Bytes) : State :=
  { State.resetWith p with inputs := program.map Input.command }

end Sys2Proof.Machine
end

