-- ==== Sys2Proof/Machine/FrameUnit.lean ====
section
/-! DEFINITION. The frame unit (42_frame.md): message build, frame encode and frame decode. -/

namespace Sys2Proof.Machine

/-- `MSG_BUILD` (R89): the header is copied as it stands in `HDR`. -/
def execMsgBuild (body : Bytes) (s : State) : Host.Outcome State Fault Refusal :=
  withinCapacity s.params.bodyMax.val body s <|
    readHdr s fun h => respond .ok [] (writeMsg (BitVec.ofNat 32 (10 + body.length)) h body s)

/-- `FRAME_ENCODE` (R91): the length is `MSG_LEN` as stored. -/
def execFrameEncode (s : State) : Host.Outcome State Fault Refusal :=
  readMsg s fun len h body => respond .ok (frameBytes len h body) s

/-- The declared length disagrees with the body, and this instance checks it (R93, R95). -/
def lengthRefused (p : Params) (len : U32) (body : Bytes) : Bool :=
  p.strictLengthCheck && decide (len.toNat ≠ 10 + body.length)

/-- `FRAME_DECODE` (R93): the message register, and a copy of its header in `HDR`. -/
def execFrameDecode (buf : Bytes) (s : State) : Host.Outcome State Fault Refusal :=
  withinCapacity (inputMax s.params) buf s <|
    if buf.length < 14 then raise .tooShort [] s
    else
      let len := le32 buf 0
      let h := hdrDecode ((buf.drop 4).take 10)
      let body := buf.drop 14
      if lengthRefused s.params len body then raise .lengthMismatch [] s
      else respond .ok [] (writeHdr h (writeMsg len h body s))

end Sys2Proof.Machine
end

