-- ==== Sys2Proof/Machine/HeaderByte2.lean ====
section
/-! DEFINITION. The HeaderByte2 codec (40_sessionid_headerbyte2.md section 2). No command here reads or writes a register. -/

namespace Sys2Proof.Machine

/-- `HB2_PACK` (R73). -/
def execHb2Pack (w t : Byte) (s : State) : Host.Outcome State Fault Refusal :=
  respond .ok [hb2Pack w t] s

/-- `HB2_UNPACK` (R74). -/
def execHb2Unpack (hb2 : Byte) (s : State) : Host.Outcome State Fault Refusal :=
  respond .ok [(hb2Unpack hb2).1, (hb2Unpack hb2).2] s

/-- `HB2_ENCODE` (R75). -/
def execHb2Encode (hb2 : Byte) (s : State) : Host.Outcome State Fault Refusal :=
  respond .ok [hb2] s

/-- `HB2_DECODE` (R76): bytes beyond the first are not read. -/
def execHb2Decode (buf : Bytes) (s : State) : Host.Outcome State Fault Refusal :=
  withinCapacity (inputMax s.params) buf s <|
    if buf.length < 1 then raise .sizeError [] s else respond .ok [byteAt buf 0] s

end Sys2Proof.Machine
end

