-- ==== Sys2Proof/Machine/HeaderUnit.lean ====
section
/-! DEFINITION. The header unit (41_header.md): build, decode, encode and kind resolution. -/

namespace Sys2Proof.Machine

/-- `HDR_BUILD` (R79): a kind outside the enumeration is refused and writes nothing. -/
def execHdrBuild (kind : Byte) (sid dir dev : U16) (hb2 w stream fn : Byte) (sys : U32) (s : State) :
    Host.Outcome State Fault Refusal :=
  match MessageKind.ofSType kind with
  | none => raise .unknownMessageKind [kind] s
  | some k => respond .ok [] (writeHdr (hdrBuild k sid dir dev hb2 w stream fn sys) s)

/-- `HDR_DECODE` (R82): bytes from index 10 on are not read, and no field is checked. -/
def execHdrDecode (buf : Bytes) (s : State) : Host.Outcome State Fault Refusal :=
  withinCapacity (inputMax s.params) buf s <|
    if buf.length < 10 then raise .sizeError [] s else respond .ok [] (writeHdr (hdrDecode buf) s)

/-- `HDR_ENCODE` (R83). -/
def execHdrEncode (s : State) : Host.Outcome State Fault Refusal :=
  readHdr s fun h => respond .ok (hdrBytes h) s

/-- `RESOLVE_KIND` (R84): `HDR` keeps its raw S-Type in both outcomes. -/
def execResolveKind (s : State) : Host.Outcome State Fault Refusal :=
  readHdr s fun h =>
    match MessageKind.ofSType h.st with
    | none => raise .unknownMessageKind [h.st] s
    | some _ => respond .ok [h.st] s

end Sys2Proof.Machine
end

