-- ==== Sys2Proof/Machine/SessionId.lean ====
section
/-! DEFINITION. The SessionID codec (40_sessionid_headerbyte2.md section 1). No command here reads or writes a register. -/

namespace Sys2Proof.Machine

/-- `SID_PACK` (R69). -/
def execSidPack (dir dev : U16) (s : State) : Host.Outcome State Fault Refusal :=
  respond .ok (bytes16 (sidPack dir dev)) s

/-- `SID_UNPACK` (R70). -/
def execSidUnpack (sid : U16) (s : State) : Host.Outcome State Fault Refusal :=
  respond .ok (bytes16 (sidUnpack sid).1 ++ bytes16 (sidUnpack sid).2) s

/-- `SID_ENCODE` (R71). -/
def execSidEncode (sid : U16) (s : State) : Host.Outcome State Fault Refusal :=
  respond .ok (bytes16 sid) s

/-- `SID_DECODE` (R72): bytes beyond the second are not read. -/
def execSidDecode (buf : Bytes) (s : State) : Host.Outcome State Fault Refusal :=
  withinCapacity (inputMax s.params) buf s <|
    if buf.length < 2 then raise .sizeError [] s else respond .ok (bytes16 (le16 buf 0)) s

end Sys2Proof.Machine
end

