-- ==== Sys2Proof/Machine/Dispatch.lean ====
section
/-! DEFINITION. The command's own rule, by opcode (30_encoding.md R56, the last line of R60). -/

namespace Sys2Proof.Machine

def exec (i : Instr) (s : State) : Host.Outcome State Fault Refusal :=
  match i with
  | .sidPack dir dev => Sys2Proof.Machine.execSidPack dir dev s
  | .sidUnpack sid => Sys2Proof.Machine.execSidUnpack sid s
  | .sidEncode sid => Sys2Proof.Machine.execSidEncode sid s
  | .sidDecode buf => Sys2Proof.Machine.execSidDecode buf s
  | .hb2Pack w t => Sys2Proof.Machine.execHb2Pack w t s
  | .hb2Unpack hb2 => Sys2Proof.Machine.execHb2Unpack hb2 s
  | .hb2Encode hb2 => Sys2Proof.Machine.execHb2Encode hb2 s
  | .hb2Decode buf => Sys2Proof.Machine.execHb2Decode buf s
  | .hdrBuild kind sid dir dev hb2 w stream fn sys => Sys2Proof.Machine.execHdrBuild kind sid dir dev hb2 w stream fn sys s
  | .hdrDecode buf => Sys2Proof.Machine.execHdrDecode buf s
  | .hdrEncode => Sys2Proof.Machine.execHdrEncode s
  | .resolveKind => Sys2Proof.Machine.execResolveKind s
  | .msgBuild body => Sys2Proof.Machine.execMsgBuild body s
  | .frameEncode => Sys2Proof.Machine.execFrameEncode s
  | .frameDecode buf => Sys2Proof.Machine.execFrameDecode buf s

end Sys2Proof.Machine
end

