-- ==== Sys2Proof/Machine/Step.lean ====
section
/-! DEFINITION. One step: the block accepts the next thing the host has presented and completes it (00_scope.md R4, 20_memory.md R34, R38). -/

namespace Sys2Proof.Machine

/-- A command transaction is decoded and run, or rejected by its decoder's verdict; either way it is answered (R60). A reset sets the
block's state (R111). With nothing presented, nothing happens (notes/assumptions/6.md). -/
def step (s : State) : Host.Outcome State Fault Refusal :=
  match s.inputs with
  | [] => .next s
  | .reset :: rest => .next (resetBlock (acceptInput rest s))
  | .command c :: rest =>
    match decode c with
    | .rejected e => rejectCommand e (acceptInput rest s)
    | .instr i => exec i (acceptInput rest s)

/-- `s` with the transaction of that table word presented next, so that the very next step decodes and runs it (notes/assumptions/9.md). -/
def State.withFetchWord (s : State) (nbits w : Nat) : State := presentNext (tableBytes nbits w) s

end Sys2Proof.Machine
end

