-- ==== Sys2Proof/Machine/Assembler.lean ====
section
/-! DEFINITION. The assembler syntax and the pseudo-instructions (30_encoding.md R62, R63): how the host's programs are written down. The block never
sees this text; it receives the transactions the assembler makes. -/

namespace Sys2Proof.Machine

/-- The pseudo-instructions with their operands (R63): one for each message kind, and `SEND`. -/
inductive PseudoInstr where
  | data (dir dev : U16) (w stream fn : Byte) (sys : U32)
  | selectReq (sys : U32)
  | selectRsp (sid : U16) (fn : Byte) (sys : U32)
  | deselectReq (sys : U32)
  | deselectRsp (sid : U16) (fn : Byte) (sys : U32)
  | linktestReq (sys : U32)
  | linktestRsp (sys : U32)
  | rejectReq (sid : U16) (hb2 fn : Byte) (sys : U32)
  | separateReq (sys : U32)
  | send (body : Bytes)
deriving DecidableEq, Repr

/-- The expansion: operands that the kind ignores are written as 0; `SEND` is two transactions (R63). -/
def PseudoInstr.expand : PseudoInstr → List Instr
  | .data dir dev w stream fn sys => [.hdrBuild 0 0 dir dev 0 w stream fn sys]
  | .selectReq sys => [.hdrBuild 1 0 0 0 0 0 0 0 sys]
  | .selectRsp sid fn sys => [.hdrBuild 2 sid 0 0 0 0 0 fn sys]
  | .deselectReq sys => [.hdrBuild 3 0 0 0 0 0 0 0 sys]
  | .deselectRsp sid fn sys => [.hdrBuild 4 sid 0 0 0 0 0 fn sys]
  | .linktestReq sys => [.hdrBuild 5 0 0 0 0 0 0 0 sys]
  | .linktestRsp sys => [.hdrBuild 6 0 0 0 0 0 0 0 sys]
  | .rejectReq sid hb2 fn sys => [.hdrBuild 7 sid 0 0 hb2 0 0 fn sys]
  | .separateReq sys => [.hdrBuild 9 0 0 0 0 0 0 0 sys]
  | .send body => [.msgBuild body, .frameEncode]

/-- What the first word of a line names. -/
inductive AsmHead where
  | command (o : Opcode)
  | kind (k : MessageKind)
  | send
deriving DecidableEq, Repr

/-- An operand as written: a number, a bracketed byte list, or the mnemonic of a kind (R62). -/
inductive AsmOperand where
  | number (n : Nat)
  | bytes (b : Bytes)
  | kind (k : MessageKind)
deriving DecidableEq, Repr

/-- The mnemonic of a command (R56). -/
def opcodeMnemonic : Opcode → String
  | .sidPack => "SID_PACK"
  | .sidUnpack => "SID_UNPACK"
  | .sidEncode => "SID_ENCODE"
  | .sidDecode => "SID_DECODE"
  | .hb2Pack => "HB2_PACK"
  | .hb2Unpack => "HB2_UNPACK"
  | .hb2Encode => "HB2_ENCODE"
  | .hb2Decode => "HB2_DECODE"
  | .hdrBuild => "HDR_BUILD"
  | .hdrDecode => "HDR_DECODE"
  | .hdrEncode => "HDR_ENCODE"
  | .resolveKind => "RESOLVE_KIND"
  | .msgBuild => "MSG_BUILD"
  | .frameEncode => "FRAME_ENCODE"
  | .frameDecode => "FRAME_DECODE"

/-- The mnemonic of a kind (R48). -/
def MessageKind.mnemonic : MessageKind → String
  | .data => "DATA"
  | .selectReq => "SELECT_REQ"
  | .selectRsp => "SELECT_RSP"
  | .deselectReq => "DESELECT_REQ"
  | .deselectRsp => "DESELECT_RSP"
  | .linktestReq => "LINKTEST_REQ"
  | .linktestRsp => "LINKTEST_RSP"
  | .rejectReq => "REJECT_REQ"
  | .separateReq => "SEPARATE_REQ"

/-- A numeric operand must fit the width of its field; one that does not is refused, never truncated (R62). -/
def AsmOperand.fit (bits : Nat) : AsmOperand → Option (BitVec bits)
  | .number n => if n < 2 ^ bits then some (BitVec.ofNat bits n) else none
  | _ => none

/-- The `kind` operand of `HDR_BUILD`: a number 0 to 255, or a mnemonic of R48 (R62). -/
def AsmOperand.kindByte : AsmOperand → Option Byte
  | .kind k => some k.sType
  | a => a.fit 8

/-- The byte-string operand of a format V command; its length must fit the field `n`, which the assembler computes (R62). -/
def AsmOperand.buffer : AsmOperand → Option Bytes
  | .bytes b => if Bytes.fitsLengthField b then some b else none
  | _ => none

/-- A command line's operands, in the order of R62; a wrong number or shape of operands is refused. -/
def assembleCommand (o : Opcode) (ops : List AsmOperand) : Option Instr :=
  match o, ops with
  | .sidPack, [dir, dev] => do return .sidPack (← dir.fit 16) (← dev.fit 16)
  | .sidUnpack, [sid] => do return .sidUnpack (← sid.fit 16)
  | .sidEncode, [sid] => do return .sidEncode (← sid.fit 16)
  | .sidDecode, [buf] => do return .sidDecode (← buf.buffer)
  | .hb2Pack, [w, t] => do return .hb2Pack (← w.fit 8) (← t.fit 8)
  | .hb2Unpack, [hb2] => do return .hb2Unpack (← hb2.fit 8)
  | .hb2Encode, [hb2] => do return .hb2Encode (← hb2.fit 8)
  | .hb2Decode, [buf] => do return .hb2Decode (← buf.buffer)
  | .hdrBuild, [kind, sid, dir, dev, hb2, w, stream, fn, sys] => do
    return .hdrBuild (← kind.kindByte) (← sid.fit 16) (← dir.fit 16) (← dev.fit 16) (← hb2.fit 8) (← w.fit 8)
      (← stream.fit 8) (← fn.fit 8) (← sys.fit 32)
  | .hdrDecode, [buf] => do return .hdrDecode (← buf.buffer)
  | .hdrEncode, [] => some .hdrEncode
  | .resolveKind, [] => some .resolveKind
  | .msgBuild, [body] => do return .msgBuild (← body.buffer)
  | .frameEncode, [] => some .frameEncode
  | .frameDecode, [buf] => do return .frameDecode (← buf.buffer)
  | _, _ => none

/-- A pseudo-instruction's operands (R63). -/
def assemblePseudo (k : MessageKind) (ops : List AsmOperand) : Option PseudoInstr :=
  match k, ops with
  | .data, [dir, dev, w, stream, fn, sys] => do
    return .data (← dir.fit 16) (← dev.fit 16) (← w.fit 8) (← stream.fit 8) (← fn.fit 8) (← sys.fit 32)
  | .selectReq, [sys] => do return .selectReq (← sys.fit 32)
  | .selectRsp, [sid, fn, sys] => do return .selectRsp (← sid.fit 16) (← fn.fit 8) (← sys.fit 32)
  | .deselectReq, [sys] => do return .deselectReq (← sys.fit 32)
  | .deselectRsp, [sid, fn, sys] => do return .deselectRsp (← sid.fit 16) (← fn.fit 8) (← sys.fit 32)
  | .linktestReq, [sys] => do return .linktestReq (← sys.fit 32)
  | .linktestRsp, [sys] => do return .linktestRsp (← sys.fit 32)
  | .rejectReq, [sid, hb2, fn, sys] => do
    return .rejectReq (← sid.fit 16) (← hb2.fit 8) (← fn.fit 8) (← sys.fit 32)
  | .separateReq, [sys] => do return .separateReq (← sys.fit 32)
  | _, _ => none

/-- The instructions of one line, its words already read. -/
def assembleWords (head : AsmHead) (ops : List AsmOperand) : Option (List Instr) :=
  match head with
  | .command o => (assembleCommand o ops).map fun i => [i]
  | .kind k => (assemblePseudo k ops).map PseudoInstr.expand
  | .send =>
    match ops with
    | [body] => body.buffer.map fun b => (PseudoInstr.send b).expand
    | _ => none

/-! The text of a line. -/

/-- Space between words. -/
def isBlank (c : Char) : Bool := c == ' ' || c == '\t' || c == '\r'

/-- The text without blanks at either end. -/
def trimBlanks (t : List Char) : List Char := ((t.dropWhile isBlank).reverse.dropWhile isBlank).reverse

/-- The pieces between the characters that satisfy `p`. -/
def splitAtChar (p : Char → Bool) : List Char → List (List Char)
  | [] => [[]]
  | c :: t =>
    match splitAtChar p t with
    | [] => [[c]]
    | w :: ws => if p c then [] :: w :: ws else (c :: w) :: ws

/-- The value of a digit in base 16 or below. -/
def digitValue (c : Char) : Option Nat :=
  if '0'.toNat ≤ c.toNat ∧ c.toNat ≤ '9'.toNat then some (c.toNat - '0'.toNat)
  else if 'a'.toNat ≤ c.toNat ∧ c.toNat ≤ 'f'.toNat then some (c.toNat - 'a'.toNat + 10)
  else if 'A'.toNat ≤ c.toNat ∧ c.toNat ≤ 'F'.toNat then some (c.toNat - 'A'.toNat + 10)
  else none

/-- The value of a string of digits of the base, most significant first; none for another character. -/
def digitsValue (base : Nat) (acc : Nat) : List Char → Option Nat
  | [] => some acc
  | c :: t =>
    match digitValue c with
    | none => none
    | some d => if d < base then digitsValue base (acc * base + d) t else none

/-- A numeric operand: decimal, or hexadecimal after `0x` (R62). -/
def readNumber (t : List Char) : Option Nat :=
  match t with
  | [] => none
  | '0' :: 'x' :: d :: rest => digitsValue 16 0 (d :: rest)
  | d :: rest => digitsValue 10 0 (d :: rest)

/-- One byte of a bracketed list: two hexadecimal digits. -/
def readHexByte (t : List Char) : Option Byte :=
  match t with
  | [hi, lo] => (digitsValue 16 0 [hi, lo]).map (BitVec.ofNat 8)
  | _ => none

/-- A bracketed list of hex bytes, or `[]` (R62). -/
def readBytes (t : List Char) : Option Bytes :=
  match t with
  | '[' :: rest =>
    match rest.reverse with
    | ']' :: inside => ((splitAtChar isBlank inside.reverse).filter fun w => !w.isEmpty).mapM readHexByte
    | _ => none
  | _ => none

/-- The kind a mnemonic names (R48). -/
def readKind (t : List Char) : Option MessageKind := MessageKind.all.find? fun k => k.mnemonic.toList == t

/-- One operand as written. -/
def readOperand (t : List Char) : Option AsmOperand :=
  match readBytes t with
  | some b => some (.bytes b)
  | none =>
    match readKind t with
    | some k => some (.kind k)
    | none => (readNumber t).map AsmOperand.number

/-- The first word of a line: a command, a kind's pseudo-instruction, or `SEND`. -/
def readHead (t : List Char) : Option AsmHead :=
  match Opcode.all.find? fun o => (opcodeMnemonic o).toList == t with
  | some o => some (.command o)
  | none =>
    match readKind t with
    | some k => some (.kind k)
    | none => if t == "SEND".toList then some .send else none

/-- One line: `MNEMONIC operand, operand, ...`, `;` starting a comment; an empty line makes nothing (R62). -/
def assembleLine (line : List Char) : Option (List Instr) :=
  match trimBlanks (line.takeWhile (· != ';')) with
  | [] => some []
  | t =>
    match readHead (t.takeWhile fun c => !isBlank c) with
    | none => none
    | some head =>
      match trimBlanks (t.dropWhile fun c => !isBlank c) with
      | [] => assembleWords head []
      | operands =>
        match (splitAtChar (· == ',') operands).mapM fun w => readOperand (trimBlanks w) with
        | none => none
        | some ops => assembleWords head ops

/-- A program text: one command per line (R62); the transactions it stands for, or none if a line is refused. -/
def assemble (text : List Char) : Option (List Bytes) :=
  ((splitAtChar (· == '\n') text).mapM assembleLine).map fun lines => lines.flatten.map encode

end Sys2Proof.Machine
end

