-- ==== Sys2Proof/Safety.lean ====
section
/-! DEFINITION. The terms claims are stated in: the invariants of 10_state.md section 3, what an observer of the port can tell apart, and what a
run is. -/

namespace Sys2Proof.Machine

/-- Capacity invariant (R23): `|MSG_BODY| <= BODY_MAX`. -/
def State.CapacityInv (s : State) : Prop := s.block.msgBody.length ≤ s.params.bodyMax.val

/-- The length relation of R22: a valid message's length field counts its header and body. -/
def State.LengthInv (s : State) : Prop :=
  s.block.msgValid = true → s.block.msgLen.toNat = 10 + s.block.msgBody.length

/-- A header has the form the dispatch table gives its kind (R21, R80): P-Type 0, an S-Type of the enumeration, and the kind's fixed fields. -/
def Header.Built (h : Header) : Prop :=
  h.pt = 0 ∧
    (h.st = 0 ∨
      (h.st ∈ ([1, 3, 5, 6, 9] : List Byte) ∧ h.sid = 0xFFFF ∧ h.hb2 = 0 ∧ h.fn = 0) ∨
      (h.st ∈ ([2, 4] : List Byte) ∧ h.hb2 = 0) ∨
      h.st = 7)

/-- Two blocks that differ at most in the contents of registers whose valid bit is 0 (R24). -/
def Block.SameVisible (a b : Block) : Prop :=
  a.hdrValid = b.hdrValid ∧ (a.hdrValid = true → a.hdr = b.hdr) ∧
    a.msgValid = b.msgValid ∧
    (a.msgValid = true → a.msgLen = b.msgLen ∧ a.msgHdr = b.msgHdr ∧ a.msgBody = b.msgBody)

/-- Two machines that no host can tell apart at the port: the same instance, the same inputs and responses, and blocks that differ at most in
unobservable contents. -/
def State.SameVisible (s t : State) : Prop :=
  s.params = t.params ∧ s.inputs = t.inputs ∧ s.responses = t.responses ∧ s.block.SameVisible t.block

/-- The command transactions among inputs: each of them is answered once (R51). -/
def commandsOf (inputs : List Input) : List Bytes :=
  inputs.filterMap fun i =>
    match i with
    | .command c => some c
    | .reset => none

/-- The commands of the two leaf codecs (R2, R117): those of 40_sessionid_headerbyte2.md. -/
def isLeafCodec : Instr → Bool
  | .sidPack _ _ | .sidUnpack _ | .sidEncode _ | .sidDecode _ => true
  | .hb2Pack _ _ | .hb2Unpack _ | .hb2Encode _ | .hb2Decode _ => true
  | .hdrBuild _ _ _ _ _ _ _ _ _ | .hdrDecode _ | .hdrEncode | .resolveKind => false
  | .msgBuild _ | .frameEncode | .frameDecode _ => false

end Sys2Proof.Machine
end

