-- ==== Sys2Proof/Certificates/Slice0/Obligations.lean ====
section
/-! DEFINITION. The statements for the provers. Each docstring names the rules of spec/ it formalises. The words below (`octet`, `littleEndian`,
`answered` and the like) say the spec's terms a second time, apart from the model's own operations. -/

namespace Sys2Proof.Spec

open Sys2Proof Sys2Proof.Machine

/-- Byte `k` of a number, byte 0 the least significant. -/
def octet (v k : Nat) : Byte := BitVec.ofNat 8 (v / 256 ^ k)

/-- The two bytes of a 16-bit field, low byte first. -/
def field16 (v : U16) : Bytes := [octet v.toNat 0, octet v.toNat 1]

/-- The four bytes of a 32-bit field, low byte first. -/
def field32 (v : U32) : Bytes := [octet v.toNat 0, octet v.toNat 1, octet v.toNat 2, octet v.toNat 3]

/-- The four bytes of the field `n` of a format V command. -/
def lengthField (n : Nat) : Bytes := [octet n 0, octet n 1, octet n 2, octet n 3]

/-- The number a byte string stands for, low byte first. -/
def littleEndian : Bytes → Nat
  | [] => 0
  | b :: t => b.toNat + 256 * littleEndian t

/-- The ten header bytes in the order of R43. -/
def headerBytes (h : Header) : Bytes := field16 h.sid ++ [h.hb2, h.fn, h.pt, h.st] ++ field32 h.sys

/-- `KINDS` (R48). -/
def kinds : List Byte := [0, 1, 2, 3, 4, 5, 6, 7, 9]

/-- The opcodes of the fixed formats with the length of each (R53, R56). -/
def fixedFormats : List (Byte × Nat) :=
  [(0x01, 5), (0x02, 3), (0x03, 3), (0x05, 3), (0x06, 2), (0x07, 2), (0x10, 16), (0x12, 1), (0x13, 1), (0x21, 1)]

/-- The opcodes of format V (R56). -/
def formatV : List Byte := [0x04, 0x08, 0x11, 0x20, 0x22]

/-- `s` with one more response. -/
def answered (s : State) (r : Bytes) : State := { s with responses := s.responses ++ [r] }

/-- `s` with the header `h` in `HDR` and `HDR_VALID = 1`. -/
def headerStored (s : State) (h : Header) : State :=
  { s with block := { s.block with hdrValid := true, hdr := h } }

/-- `s` with the message `(len, h, body)` in the message register and `MSG_VALID = 1`. -/
def messageStored (s : State) (len : U32) (h : Header) (body : Bytes) : State :=
  { s with block := { s.block with msgValid := true, msgLen := len, msgHdr := h, msgBody := body } }

/-- The transaction has the length of its format (R53, R55); its first byte is `op`. -/
abbrev lengthMatches (op : Byte) (c : Bytes) : Prop :=
  (op, c.length) ∈ fixedFormats ∨
    (op ∈ formatV ∧ 5 ≤ c.length ∧ c.length = 5 + littleEndian ((c.drop 1).take 4))

/-- The capacity of a format V command (R59). -/
def capacityOf (p : Params) (op : Byte) : Nat := if op = 0x20 then p.bodyMax.val else 14 + p.bodyMax.val

/-- The command's own error, level 6 of R99, or 0x00. -/
def ownStatus (p : Params) (b : Block) (op : Byte) (c : Bytes) : Byte :=
  let buf := c.drop 5
  if op = 0x22 then
    if buf.length < 14 then 0x01
    else if p.strictLengthCheck = true ∧ littleEndian (buf.take 4) ≠ 10 + (buf.length - 14) then 0x05 else 0x00
  else if op = 0x04 then if buf.length < 2 then 0x04 else 0x00
  else if op = 0x08 then if buf.length < 1 then 0x04 else 0x00
  else if op = 0x11 then if buf.length < 10 then 0x04 else 0x00
  else if op = 0x10 then if c.getD 1 0 ∈ kinds then 0x00 else 0x03
  else if op = 0x13 then if b.hdr.st ∈ kinds then 0x00 else 0x03
  else 0x00

/-- The one status of a transaction: the first condition of R99's list that holds. -/
def statusByPriority (p : Params) (b : Block) (c : Bytes) : Byte :=
  match c with
  | [] => 0x81
  | op :: _ =>
    if op ∉ fixedFormats.map Prod.fst ∧ op ∉ formatV then 0x80
    else if ¬lengthMatches op c then 0x81
    else if op ∈ formatV ∧ capacityOf p op < (c.drop 5).length then 0x83
    else if (op ∈ ([0x12, 0x13, 0x20] : List Byte) ∧ b.hdrValid = false) ∨ (op = 0x21 ∧ b.msgValid = false) then 0x82
    else ownStatus p b op c

/-- The statuses a command can answer once the decode and capacity checks pass (R78, R88, R96). -/
def ownStatuses : Instr → List Byte
  | .sidPack _ _ | .sidUnpack _ | .sidEncode _ => [0x00]
  | .hb2Pack _ _ | .hb2Unpack _ | .hb2Encode _ => [0x00]
  | .sidDecode _ | .hb2Decode _ => [0x00, 0x04]
  | .hdrBuild _ _ _ _ _ _ _ _ _ => [0x00, 0x03]
  | .hdrDecode _ => [0x00, 0x04]
  | .hdrEncode => [0x00, 0x82]
  | .resolveKind => [0x00, 0x03, 0x82]
  | .msgBuild _ => [0x00, 0x82]
  | .frameEncode => [0x00, 0x82]
  | .frameDecode _ => [0x00, 0x01, 0x05]

/-- The byte string of a format V command is within the command's capacity (R59); true of the other commands. -/
def withinItsCapacity (p : Params) : Instr → Prop
  | .sidDecode buf | .hb2Decode buf | .hdrDecode buf | .frameDecode buf => buf.length ≤ 14 + p.bodyMax.val
  | .msgBuild body => body.length ≤ p.bodyMax.val
  | .sidPack _ _ | .sidUnpack _ | .sidEncode _ | .hb2Pack _ _ | .hb2Unpack _ | .hb2Encode _ => True
  | .hdrBuild _ _ _ _ _ _ _ _ _ | .hdrEncode | .resolveKind | .frameEncode => True

/-- The payload length on `OK` (R61). -/
def okPayloadLength (b : Block) : Instr → Nat
  | .sidPack _ _ | .sidEncode _ | .sidDecode _ => 2
  | .sidUnpack _ => 4
  | .hb2Pack _ _ | .hb2Encode _ | .hb2Decode _ => 1
  | .hb2Unpack _ => 2
  | .hdrBuild _ _ _ _ _ _ _ _ _ | .hdrDecode _ => 0
  | .hdrEncode => 10
  | .resolveKind => 1
  | .msgBuild _ | .frameDecode _ => 0
  | .frameEncode => 14 + b.msgBody.length

/-- The commands that may write `HDR` (R15). -/
def mayWriteHdr : Instr → Bool
  | .hdrBuild _ _ _ _ _ _ _ _ _ | .hdrDecode _ | .frameDecode _ => true
  | .sidPack _ _ | .sidUnpack _ | .sidEncode _ | .sidDecode _ => false
  | .hb2Pack _ _ | .hb2Unpack _ | .hb2Encode _ | .hb2Decode _ => false
  | .hdrEncode | .resolveKind | .msgBuild _ | .frameEncode => false

/-- The commands that read `HDR` (R15). -/
def readsHdr : Instr → Bool
  | .hdrEncode | .resolveKind | .msgBuild _ => true
  | .sidPack _ _ | .sidUnpack _ | .sidEncode _ | .sidDecode _ => false
  | .hb2Pack _ _ | .hb2Unpack _ | .hb2Encode _ | .hb2Decode _ => false
  | .hdrBuild _ _ _ _ _ _ _ _ _ | .hdrDecode _ | .frameEncode | .frameDecode _ => false

/-- The commands that may write the message register (R16). -/
def mayWriteMsg : Instr → Bool
  | .msgBuild _ | .frameDecode _ => true
  | .sidPack _ _ | .sidUnpack _ | .sidEncode _ | .sidDecode _ => false
  | .hb2Pack _ _ | .hb2Unpack _ | .hb2Encode _ | .hb2Decode _ => false
  | .hdrBuild _ _ _ _ _ _ _ _ _ | .hdrDecode _ | .hdrEncode | .resolveKind | .frameEncode => false

/-- The message register of a block, its valid bit with it. -/
def messageOf (b : Block) : Bool × U32 × Header × Bytes := (b.msgValid, b.msgLen, b.msgHdr, b.msgBody)

/-- The operands of a command as numbers and byte lists, in the order of R62. -/
def writtenOperands : Instr → List AsmOperand
  | .sidPack dir dev => [.number dir.toNat, .number dev.toNat]
  | .sidUnpack sid => [.number sid.toNat]
  | .sidEncode sid => [.number sid.toNat]
  | .sidDecode buf => [.bytes buf]
  | .hb2Pack w t => [.number w.toNat, .number t.toNat]
  | .hb2Unpack hb2 => [.number hb2.toNat]
  | .hb2Encode hb2 => [.number hb2.toNat]
  | .hb2Decode buf => [.bytes buf]
  | .hdrBuild kind sid dir dev hb2 w stream fn sys =>
    [.number kind.toNat, .number sid.toNat, .number dir.toNat, .number dev.toNat, .number hb2.toNat, .number w.toNat,
      .number stream.toNat, .number fn.toNat, .number sys.toNat]
  | .hdrDecode buf => [.bytes buf]
  | .hdrEncode => []
  | .resolveKind => []
  | .msgBuild body => [.bytes body]
  | .frameEncode => []
  | .frameDecode buf => [.bytes buf]

/-- The response the block adds when it runs `i` at `s`, with the state after it. -/
def answers (i : Instr) (s : State) (status : Byte) (payload : Bytes) (s' : State) : Prop :=
  exec i s = .next s' ∧ s'.responses = s.responses ++ [status :: payload]

end Sys2Proof.Spec

open Sys2Proof Sys2Proof.Machine Sys2Proof.Spec

/-! ### Byte order and wire layout -/

/-- R10: the little-endian helpers, written as numbers. -/
def Obligations.LittleEndianHelpers : Prop :=
  (∀ v : U16, bytes16 v = [octet v.toNat 0, octet v.toNat 1]) ∧
  (∀ v : U32, bytes32 v = [octet v.toNat 0, octet v.toNat 1, octet v.toNat 2, octet v.toNat 3]) ∧
  (∀ (b : Bytes) (off : Nat) (h : off + 2 ≤ b.length),
    (le16 b off).toNat = (b[off]'(by omega)).toNat + 256 * (b[off + 1]'(by omega)).toNat) ∧
  (∀ (b : Bytes) (off : Nat) (h : off + 4 ≤ b.length),
    (le32 b off).toNat = (b[off]'(by omega)).toNat + 256 * (b[off + 1]'(by omega)).toNat
      + 65536 * (b[off + 2]'(by omega)).toNat + 16777216 * (b[off + 3]'(by omega)).toNat)

/-- R43: the ten header bytes, and their place in the frame. -/
def Obligations.HeaderLayout : Prop :=
  ∀ (len : U32) (h : Header) (body : Bytes),
    hdrBytes h =
      [octet h.sid.toNat 0, octet h.sid.toNat 1, h.hb2, h.fn, h.pt, h.st,
        octet h.sys.toNat 0, octet h.sys.toNat 1, octet h.sys.toNat 2, octet h.sys.toNat 3] ∧
    ∀ k, k < 10 → (frameBytes len h body)[k + 4]? = (hdrBytes h)[k]?

/-- R30 and R92: where the bits of SessionID, length and SystemBytes stand in a frame, and the frame's length. -/
def Obligations.FrameBitsStandWhereTheWireTableSays : Prop :=
  ∀ (len : U32) (h : Header) (body : Bytes),
    (frameBytes len h body).length = 14 + body.length ∧
    (∀ k, k < 4 → (frameBytes len h body)[k]? = some (octet len.toNat k)) ∧
    (∀ k, k < 4 → (frameBytes len h body)[10 + k]? = some (octet h.sys.toNat k)) ∧
    ∃ b4 b5 : Byte,
      (frameBytes len h body)[4]? = some b4 ∧ (frameBytes len h body)[5]? = some b5 ∧
      b5.getLsbD 7 = h.sid.getLsbD 15 ∧
      (∀ j, j < 7 → b5.getLsbD j = h.sid.getLsbD (8 + j)) ∧
      ∀ j, j < 8 → b4.getLsbD j = h.sid.getLsbD j

/-- R32: body bytes are copied in order and unchanged, by build and by decode. -/
def Obligations.BodyBytesUnchanged : Prop :=
  (∀ (body : Bytes) (s s' : State), answers (.msgBuild body) s 0x00 [] s' →
    ∃ f, answers .frameEncode s' 0x00 f (answered s' (0x00 :: f)) ∧ f.drop 14 = body) ∧
  (∀ (buf : Bytes) (s s' : State), answers (.frameDecode buf) s 0x00 [] s' →
    ∃ f, answers .frameEncode s' 0x00 f (answered s' (0x00 :: f)) ∧ f.drop 14 = buf.drop 14)

/-! ### SessionID codec -/

/-- R69. -/
def Obligations.SidPackMasks : Prop :=
  ∀ dir dev : U16,
    decode (0x01 :: (field16 dir ++ field16 dev)) = .instr (.sidPack dir dev) ∧
    ∀ s : State, exec (.sidPack dir dev) s =
      .next (answered s (0x00 :: field16 ((dir &&& 0x8000) ||| (dev &&& 0x7FFF))))

/-- R70. -/
def Obligations.SidUnpackSplits : Prop :=
  ∀ sid : U16,
    decode (0x02 :: field16 sid) = .instr (.sidUnpack sid) ∧
    ∀ s : State, exec (.sidUnpack sid) s =
      .next (answered s (0x00 :: (field16 (sid &&& 0x8000) ++ field16 (sid &&& 0x7FFF))))

/-- R71. -/
def Obligations.SidEncodeLowByteFirst : Prop :=
  ∀ sid : U16,
    decode (0x03 :: field16 sid) = .instr (.sidEncode sid) ∧
    ∀ s : State, exec (.sidEncode sid) s = .next (answered s (0x00 :: field16 sid))

/-- R72. -/
def Obligations.SidDecodeFirstTwoBytes : Prop :=
  (∀ buf : Bytes, buf.length < 2 ^ 32 →
    decode (0x04 :: (lengthField buf.length ++ buf)) = .instr (.sidDecode buf)) ∧
  (∀ (buf : Bytes) (s : State), buf.length < 2 → exec (.sidDecode buf) s = .next (answered s [0x04])) ∧
  (∀ (a b : Byte) (rest : Bytes) (s : State), (a :: b :: rest).length ≤ 14 + s.params.bodyMax.val →
    exec (.sidDecode (a :: b :: rest)) s = .next (answered s [0x00, a, b]))

/-! ### HeaderByte2 codec -/

/-- R73. -/
def Obligations.HbTwoPackMasks : Prop :=
  ∀ w t : Byte,
    decode [0x05, w, t] = .instr (.hb2Pack w t) ∧
    ∀ s : State, exec (.hb2Pack w t) s = .next (answered s [0x00, (w &&& 0x80) ||| (t &&& 0x7F)])

/-- R74. -/
def Obligations.HbTwoUnpackSplits : Prop :=
  ∀ hb2 : Byte,
    decode [0x06, hb2] = .instr (.hb2Unpack hb2) ∧
    ∀ s : State, exec (.hb2Unpack hb2) s = .next (answered s [0x00, hb2 &&& 0x80, hb2 &&& 0x7F])

/-- R75. -/
def Obligations.HbTwoEncodeOneByte : Prop :=
  ∀ hb2 : Byte,
    decode [0x07, hb2] = .instr (.hb2Encode hb2) ∧
    ∀ s : State, exec (.hb2Encode hb2) s = .next (answered s [0x00, hb2])

/-- R76. -/
def Obligations.HbTwoDecodeFirstByte : Prop :=
  (∀ buf : Bytes, buf.length < 2 ^ 32 →
    decode (0x08 :: (lengthField buf.length ++ buf)) = .instr (.hb2Decode buf)) ∧
  (∀ s : State, exec (.hb2Decode []) s = .next (answered s [0x04])) ∧
  (∀ (a : Byte) (rest : Bytes) (s : State), (a :: rest).length ≤ 14 + s.params.bodyMax.val →
    exec (.hb2Decode (a :: rest)) s = .next (answered s [0x00, a]))

/-- R77: the laws of the two codecs. -/
def Obligations.CodecLaws : Prop :=
  (∀ d e : U16, sidPack d e = (d &&& 0x8000) ||| (e &&& 0x7FFF)) ∧
  (∀ v : U16, sidPack (sidUnpack v).1 (sidUnpack v).2 = v) ∧
  (∀ d e : U16, sidUnpack (sidPack d e) = (d &&& 0x8000, e &&& 0x7FFF)) ∧
  (∀ w t : Byte, hb2Pack w t = (w &&& 0x80) ||| (t &&& 0x7F)) ∧
  (∀ h : Byte, hb2Pack (hb2Unpack h).1 (hb2Unpack h).2 = h) ∧
  (∀ (v : U16) (b : Bytes) (s : State), (bytes16 v ++ b).length ≤ 14 + s.params.bodyMax.val →
    exec (.sidDecode (bytes16 v ++ b)) s = .next (answered s (0x00 :: field16 v))) ∧
  (∀ (h : Byte) (b : Bytes) (s : State), ([h] ++ b).length ≤ 14 + s.params.bodyMax.val →
    exec (.hb2Decode ([h] ++ b)) s = .next (answered s [0x00, h]))

/-- R120: a flag passed in bit 0 is masked off, with status `OK`. -/
def Obligations.FlagOperandsCarryTheTopBit : Prop :=
  (∀ (dir dev : U16) (s : State), ∃ v : U16,
    exec (.sidPack dir dev) s = .next (answered s (0x00 :: field16 v)) ∧ v.getLsbD 15 = dir.getLsbD 15) ∧
  (∀ (w t : Byte) (s : State), ∃ v : Byte,
    exec (.hb2Pack w t) s = .next (answered s [0x00, v]) ∧ v.getLsbD 7 = w.getLsbD 7) ∧
  (∀ (sid dir dev : U16) (hb2 w stream fn : Byte) (sys : U32) (s : State), ∃ h : Header,
    exec (.hdrBuild 0 sid dir dev hb2 w stream fn sys) s = .next (answered (headerStored s h) [0x00]) ∧
      h.sid.getLsbD 15 = dir.getLsbD 15 ∧ h.hb2.getLsbD 7 = w.getLsbD 7)

/-- R2 and R117: a leaf codec command touches no register, and its response depends on no register. -/
def Obligations.LeafCodecsTouchNoRegister : Prop :=
  ∀ (i : Instr) (s t : State), isLeafCodec i = true → s.params = t.params →
    ∃ r : Bytes, exec i s = .next (answered s r) ∧ exec i t = .next (answered t r)

/-! ### Header unit -/

/-- R79 and R80: the dispatch table, row by row. -/
def Obligations.HdrBuildFollowsTheDispatchTable : Prop :=
  ∀ (kind : Byte) (sid dir dev : U16) (hb2 w stream fn : Byte) (sys : U32),
    decode (0x10 :: kind :: (field16 sid ++ field16 dir ++ field16 dev ++ [hb2, w, stream, fn] ++ field32 sys)) =
      .instr (.hdrBuild kind sid dir dev hb2 w stream fn sys) ∧
    ∀ s : State,
      (kind = 0 → exec (.hdrBuild kind sid dir dev hb2 w stream fn sys) s =
        .next (answered (headerStored s
          { sid := (dir &&& 0x8000) ||| (dev &&& 0x7FFF), hb2 := (w &&& 0x80) ||| (stream &&& 0x7F), fn := fn,
            pt := 0, st := kind, sys := sys }) [0x00])) ∧
      (kind ∈ ([1, 3, 5, 6, 9] : List Byte) → exec (.hdrBuild kind sid dir dev hb2 w stream fn sys) s =
        .next (answered (headerStored s
          { sid := 0xFFFF, hb2 := 0, fn := 0, pt := 0, st := kind, sys := sys }) [0x00])) ∧
      (kind ∈ ([2, 4] : List Byte) → exec (.hdrBuild kind sid dir dev hb2 w stream fn sys) s =
        .next (answered (headerStored s
          { sid := sid, hb2 := 0, fn := fn, pt := 0, st := kind, sys := sys }) [0x00])) ∧
      (kind = 7 → exec (.hdrBuild kind sid dir dev hb2 w stream fn sys) s =
        .next (answered (headerStored s
          { sid := sid, hb2 := hb2, fn := fn, pt := 0, st := kind, sys := sys }) [0x00])) ∧
      (kind ∉ kinds → exec (.hdrBuild kind sid dir dev hb2 w stream fn sys) s =
        .next (answered s [0x03, kind]))

/-- R81: an operand that is not marked for the kind has no effect. -/
def Obligations.HdrBuildIgnoresUnusedOperands : Prop :=
  ∀ (sid sid' dir dir' dev dev' : U16) (hb2 hb2' w w' stream stream' fn fn' : Byte) (sys : U32) (s : State),
    exec (.hdrBuild 0 sid dir dev hb2 w stream fn sys) s = exec (.hdrBuild 0 sid' dir dev hb2' w stream fn sys) s ∧
    (∀ kind ∈ ([1, 3, 5, 6, 9] : List Byte),
      exec (.hdrBuild kind sid dir dev hb2 w stream fn sys) s =
        exec (.hdrBuild kind sid' dir' dev' hb2' w' stream' fn' sys) s) ∧
    (∀ kind ∈ ([2, 4] : List Byte),
      exec (.hdrBuild kind sid dir dev hb2 w stream fn sys) s =
        exec (.hdrBuild kind sid dir' dev' hb2' w' stream' fn sys) s) ∧
    exec (.hdrBuild 7 sid dir dev hb2 w stream fn sys) s =
      exec (.hdrBuild 7 sid dir' dev' hb2 w' stream' fn sys) s

/-- R82. -/
def Obligations.HdrDecodeStoresTenBytesUnchecked : Prop :=
  (∀ buf : Bytes, buf.length < 2 ^ 32 →
    decode (0x11 :: (lengthField buf.length ++ buf)) = .instr (.hdrDecode buf)) ∧
  (∀ (buf : Bytes) (s : State), buf.length < 10 → exec (.hdrDecode buf) s = .next (answered s [0x04])) ∧
  (∀ (h : Header) (rest : Bytes) (s : State), (headerBytes h ++ rest).length ≤ 14 + s.params.bodyMax.val →
    exec (.hdrDecode (headerBytes h ++ rest)) s = .next (answered (headerStored s h) [0x00]))

/-- R83. -/
def Obligations.HdrEncodeAnswersTenBytes : Prop :=
  decode [0x12] = .instr .hdrEncode ∧
  (∀ s : State, s.block.hdrValid = false → exec .hdrEncode s = .next (answered s [0x82])) ∧
  (∀ s : State, s.block.hdrValid = true →
    exec .hdrEncode s = .next (answered s (0x00 :: headerBytes s.block.hdr)))

/-- R84. -/
def Obligations.ResolveKindAnswersTheSType : Prop :=
  decode [0x13] = .instr .resolveKind ∧
  (∀ s : State, s.block.hdrValid = false → exec .resolveKind s = .next (answered s [0x82])) ∧
  (∀ s : State, s.block.hdrValid = true → s.block.hdr.st ∈ kinds →
    exec .resolveKind s = .next (answered s [0x00, s.block.hdr.st])) ∧
  (∀ s : State, s.block.hdrValid = true → s.block.hdr.st ∉ kinds →
    exec .resolveKind s = .next (answered s [0x03, s.block.hdr.st]))

/-- R85: the header round trip, both ways. -/
def Obligations.HeaderRoundTrip : Prop :=
  (∀ h : Header, hdrDecode (hdrBytes h) = h) ∧
  (∀ b : Bytes, 10 ≤ b.length → hdrBytes (hdrDecode b) = b.take 10)

/-- R86: build and resolution agree. -/
def Obligations.BuildAndResolutionAgree : Prop :=
  (∀ (kind : Byte) (sid dir dev : U16) (hb2 w stream fn : Byte) (sys : U32) (s : State), kind ∈ kinds →
    ∃ s', exec (.hdrBuild kind sid dir dev hb2 w stream fn sys) s = .next s' ∧
      s'.block.hdr.st = kind ∧ s'.block.hdr.pt = 0 ∧
      exec .resolveKind s' = .next (answered s' [0x00, kind])) ∧
  (∀ (sid dir dev : U16) (hb2 w stream fn : Byte) (sys : U32),
    (hdrBuild .selectReq sid dir dev hb2 w stream fn sys).sid = 0xFFFF ∧
    (hdrBuild .selectReq sid dir dev hb2 w stream fn sys).hb2 = 0)

/-- R87, in its effect: any ten header bytes, whatever their S-Type, leave as they came in, through `HDR_ENCODE` and in a frame. -/
def Obligations.AnyHeaderIsRelayed : Prop :=
  ∀ (b body : Bytes) (s : State), 10 ≤ b.length → b.length ≤ 14 + s.params.bodyMax.val →
    body.length ≤ s.params.bodyMax.val →
    ∃ s1 s2 f, answers (.hdrDecode b) s 0x00 [] s1 ∧
      answers .hdrEncode s1 0x00 (b.take 10) (answered s1 (0x00 :: b.take 10)) ∧
      answers (.msgBuild body) s1 0x00 [] s2 ∧
      answers .frameEncode s2 0x00 f (answered s2 (0x00 :: f)) ∧ (f.drop 4).take 10 = b.take 10

/-- R21: a header written by `HDR_BUILD` has the built form, and no command but the two decoders takes it away. -/
def Obligations.BuiltHeaderFormIsKept : Prop :=
  (∀ (kind : Byte) (sid dir dev : U16) (hb2 w stream fn : Byte) (sys : U32) (s s' : State),
    answers (.hdrBuild kind sid dir dev hb2 w stream fn sys) s 0x00 [] s' → s'.block.hdr.Built ∧ s'.block.hdr.st = kind) ∧
  (∀ (i : Instr) (s s' : State), (∀ buf, i ≠ .hdrDecode buf) → (∀ buf, i ≠ .frameDecode buf) →
    s.block.hdr.Built → exec i s = .next s' → s'.block.hdr.Built)

/-! ### Frame unit -/

/-- R89. -/
def Obligations.MsgBuildStoresTheMessage : Prop :=
  (∀ body : Bytes, body.length < 2 ^ 32 →
    decode (0x20 :: (lengthField body.length ++ body)) = .instr (.msgBuild body)) ∧
  (∀ (body : Bytes) (s : State), body.length ≤ s.params.bodyMax.val → s.block.hdrValid = false →
    exec (.msgBuild body) s = .next (answered s [0x82])) ∧
  (∀ (body : Bytes) (s : State), s.params.bodyMax.val < body.length →
    exec (.msgBuild body) s = .next (answered s [0x83])) ∧
  (∀ (body : Bytes) (s : State), body.length ≤ s.params.bodyMax.val → s.block.hdrValid = true →
    ∃ len : U32, len.toNat = 10 + body.length ∧
      exec (.msgBuild body) s = .next (answered (messageStored s len s.block.hdr body) [0x00]))

/-- R91. -/
def Obligations.FrameEncodeEmitsTheStoredMessage : Prop :=
  decode [0x21] = .instr .frameEncode ∧
  (∀ s : State, s.block.msgValid = false → exec .frameEncode s = .next (answered s [0x82])) ∧
  (∀ s : State, s.block.msgValid = true → exec .frameEncode s =
    .next (answered s (0x00 :: (field32 s.block.msgLen ++ headerBytes s.block.msgHdr ++ s.block.msgBody))))

/-- R93 and R95. -/
def Obligations.FrameDecodeStoresMessageAndHeader : Prop :=
  (∀ buf : Bytes, buf.length < 2 ^ 32 →
    decode (0x22 :: (lengthField buf.length ++ buf)) = .instr (.frameDecode buf)) ∧
  (∀ (buf : Bytes) (s : State), buf.length < 14 → exec (.frameDecode buf) s = .next (answered s [0x01])) ∧
  (∀ (buf : Bytes) (s : State), 14 + s.params.bodyMax.val < buf.length →
    exec (.frameDecode buf) s = .next (answered s [0x83])) ∧
  (∀ (len : U32) (h : Header) (body : Bytes) (s : State), body.length ≤ s.params.bodyMax.val →
    s.params.strictLengthCheck = true → len.toNat ≠ 10 + body.length →
    exec (.frameDecode (field32 len ++ headerBytes h ++ body)) s = .next (answered s [0x05])) ∧
  (∀ (len : U32) (h : Header) (body : Bytes) (s : State), body.length ≤ s.params.bodyMax.val →
    (s.params.strictLengthCheck = true → len.toNat = 10 + body.length) →
    exec (.frameDecode (field32 len ++ headerBytes h ++ body)) s =
      .next (answered (headerStored (messageStored s len h body) h) [0x00]))

/-- R50: the 13/14-byte boundary. -/
def Obligations.FrameOfFourteenBytesIsTheLeast : Prop :=
  (∀ (buf : Bytes) (s : State), buf.length ≤ 13 → exec (.frameDecode buf) s = .next (answered s [0x01])) ∧
  (∀ (buf : Bytes) (s : State), buf.length = 14 →
    (s.params.strictLengthCheck = true → littleEndian (buf.take 4) = 10) →
    ∃ s', answers (.frameDecode buf) s 0x00 [] s' ∧ s'.block.msgBody = [] ∧ s'.block.msgValid = true)

/-- R49: the length field counts header and body in a frame the block builds, and is the declared one in a frame it decodes. -/
def Obligations.LengthFieldOfBuiltAndDecodedFrames : Prop :=
  (∀ (body : Bytes) (s s' : State), answers (.msgBuild body) s 0x00 [] s' →
    ∃ f, answers .frameEncode s' 0x00 f (answered s' (0x00 :: f)) ∧ littleEndian (f.take 4) = 10 + body.length) ∧
  (∀ (buf : Bytes) (s s' : State), answers (.frameDecode buf) s 0x00 [] s' →
    s'.block.msgLen.toNat = littleEndian (buf.take 4) ∧
      (s.params.strictLengthCheck = true → s'.block.msgLen.toNat = 10 + s'.block.msgBody.length))

/-- R96, message round trip: what `FRAME_ENCODE` emits of a message whose length is right decodes to that message, in either setting. -/
def Obligations.MessageRoundTrip : Prop :=
  ∀ (s t : State) (f : Bytes), s.CapacityInv → s.LengthInv → s.params = t.params →
    answers .frameEncode s 0x00 f (answered s (0x00 :: f)) →
    ∃ t', answers (.frameDecode f) t 0x00 [] t' ∧ messageOf t'.block = messageOf s.block

/-- R96, frame round trip in lenient mode: decode, then encode, is the identity on every frame within capacity. -/
def Obligations.LenientFrameRoundTrip : Prop :=
  ∀ (b : Bytes) (s : State), s.params.strictLengthCheck = false → 14 ≤ b.length → b.length ≤ 14 + s.params.bodyMax.val →
    ∃ s', answers (.frameDecode b) s 0x00 [] s' ∧ answers .frameEncode s' 0x00 b (answered s' (0x00 :: b))

/-- R116: a later header write does not change the message that `FRAME_ENCODE` emits. -/
def Obligations.HeaderSnapshot : Prop :=
  ∀ (body : Bytes) (s s1 s2 : State) (i : Instr), answers (.msgBuild body) s 0x00 [] s1 →
    ((∃ kind sid dir dev hb2 w stream fn sys, i = .hdrBuild kind sid dir dev hb2 w stream fn sys) ∨
      (∃ buf, i = .hdrDecode buf)) →
    exec i s1 = .next s2 →
    ∃ len : U32, len.toNat = 10 + body.length ∧
      exec .frameEncode s2 =
        .next (answered s2 (0x00 :: (field32 len ++ headerBytes s.block.hdr ++ body)))

/-- R118: a successful `FRAME_DECODE` replaces `HDR` and the whole message register: nothing of the block before it is left. -/
def Obligations.FrameDecodeReplacesBothRegisters : Prop :=
  ∀ (buf : Bytes) (s t s' : State), s.params = t.params → answers (.frameDecode buf) s 0x00 [] s' →
    ∃ t', exec (.frameDecode buf) t = .next t' ∧ t'.block = s'.block ∧ s'.block.hdr = s'.block.msgHdr ∧
      s'.block.hdrValid = true ∧ s'.block.msgValid = true

/-! ### Registers: who writes, who reads, what is kept -/

/-- R15: who writes `HDR`, who reads it (what stands in it changes what a reader answers, and nothing of what another command does), and that its
valid bit is set by its writers and cleared by reset alone. -/
def Obligations.HdrIsWrittenAndReadByThreeCommandsEach : Prop :=
  (∀ s s' : State, step s = .next s' → s.block.hdrValid = true → s'.block.hdrValid = false →
    ∃ rest, s.inputs = .reset :: rest) ∧
  ∀ (i : Instr) (s : State), ∃ s', exec i s = .next s' ∧
    (mayWriteHdr i = false → s'.block.hdr = s.block.hdr ∧ s'.block.hdrValid = s.block.hdrValid) ∧
    (mayWriteHdr i = true → s'.responses = s.responses ++ [[0x00]] → s'.block.hdrValid = true) ∧
    (readsHdr i = true → withinItsCapacity s.params i → ∃ (h : Header) (v : Bool) (t' : State),
      exec i { s with block := { s.block with hdr := h, hdrValid := v } } = .next t' ∧ t'.responses ≠ s'.responses) ∧
    (readsHdr i = false → ∀ (h : Header) (v : Bool),
      ∃ t', exec i { s with block := { s.block with hdr := h, hdrValid := v } } = .next t' ∧
        t'.responses = s'.responses ∧ messageOf t'.block = messageOf s'.block)

/-- R16: who writes the message register, who reads it, that its valid bit is set by its writers and cleared by reset alone, and that the
header in it is the one `HDR` held when the message was written. -/
def Obligations.MessageIsWrittenByTwoCommandsAndReadByOne : Prop :=
  (∀ s s' : State, step s = .next s' → s.block.msgValid = true → s'.block.msgValid = false →
    ∃ rest, s.inputs = .reset :: rest) ∧
  ∀ (i : Instr) (s : State), ∃ s', exec i s = .next s' ∧
    (mayWriteMsg i = false → messageOf s'.block = messageOf s.block) ∧
    (mayWriteMsg i = true → s'.responses = s.responses ++ [[0x00]] →
      s'.block.msgValid = true ∧ s'.block.msgHdr = s'.block.hdr) ∧
    (i = .frameEncode → ∃ (v : Bool) (t' : State),
      exec i { s with block := { s.block with msgValid := v } } = .next t' ∧ t'.responses ≠ s'.responses) ∧
    (i ≠ .frameEncode → ∀ (len : U32) (h : Header) (body : Bytes) (v : Bool),
      ∃ t', exec i { s with block := { s.block with msgLen := len, msgHdr := h, msgBody := body, msgValid := v } } = .next t' ∧
        t'.responses = s'.responses ∧ t'.block.hdr = s'.block.hdr ∧ t'.block.hdrValid = s'.block.hdrValid)

/-- The frame of every command (R15, R16, R20, R67): parameters and waiting inputs unchanged, one response more, and of the registers only
those the command's rule writes. There is no addressed memory to speak of (R25). -/
def Obligations.FrameOfEveryCommand : Prop :=
  ∀ (i : Instr) (s s' : State), exec i s = .next s' →
    s'.params = s.params ∧ s'.inputs = s.inputs ∧ (∃ r, s'.responses = s.responses ++ [r]) ∧
    (isLeafCodec i = true ∨ i = .hdrEncode ∨ i = .resolveKind ∨ i = .frameEncode → s'.block = s.block) ∧
    ((∃ kind sid dir dev hb2 w stream fn sys, i = .hdrBuild kind sid dir dev hb2 w stream fn sys) ∨
      (∃ buf, i = .hdrDecode buf) → messageOf s'.block = messageOf s.block) ∧
    ((∃ body, i = .msgBuild body) → s'.block.hdr = s.block.hdr ∧ s'.block.hdrValid = s.block.hdrValid)

/-- R23: the capacity invariant, kept by every step; so a message's length fits the 32-bit field. -/
def Obligations.StepKeepsBodyWithinCapacity : Prop :=
  ∀ s s' : State, s.CapacityInv → step s = .next s' → s'.CapacityInv ∧ 10 + s'.block.msgBody.length < 2 ^ 32

/-- R22: the length relation. Every step keeps it when the check is strict; when it is not, only `FRAME_DECODE` can end it, and it then
stores the declared length; `MSG_BUILD` makes it hold. -/
def Obligations.LengthRelationIsKept : Prop :=
  (∀ s s' : State, s.params.strictLengthCheck = true → s.LengthInv → step s = .next s' → s'.LengthInv) ∧
  (∀ (i : Instr) (s s' : State), (∀ buf, i ≠ .frameDecode buf) → s.LengthInv → exec i s = .next s' → s'.LengthInv) ∧
  (∀ (body : Bytes) (s s' : State), answers (.msgBuild body) s 0x00 [] s' →
    s'.block.msgLen.toNat = 10 + s'.block.msgBody.length) ∧
  (∀ (buf : Bytes) (s s' : State), answers (.frameDecode buf) s 0x00 [] s' →
    s'.block.msgLen.toNat = littleEndian (buf.take 4))

/-- The two invariants hold at reset, whatever the parameters. -/
def Obligations.ResetMeetsTheInvariants : Prop :=
  ∀ p : Params, (State.resetWith p).CapacityInv ∧ (State.resetWith p).LengthInv

/-- R24: contents behind a valid bit of 0 are unobservable. Two machines that differ only there answer alike for ever: one step keeps them
indistinguishable. So no claim about responses rests on the values the model gives those registers at reset (notes/assumptions/2.md). -/
def Obligations.InvalidContentsAreUnobservable : Prop :=
  ∀ s t s' : State, s.SameVisible t → step s = .next s' → ∃ t', step t = .next t' ∧ s'.SameVisible t'

/-! ### Statuses and responses -/

/-- R97, R94 and R100: every transaction is answered with a status of the table, never 0x02; who raises each, on what cause, and what each
carries. -/
def Obligations.StatusTable : Prop :=
  (∀ (i : Instr) (s : State), ∃ status payload s', answers i s status payload s' ∧
    status ∈ ([0x00, 0x01, 0x03, 0x04, 0x05, 0x82, 0x83] : List Byte) ∧
    (status = 0x01 → ∃ buf, i = .frameDecode buf ∧ buf.length < 14) ∧
    (status = 0x03 → (∃ kind sid dir dev hb2 w stream fn sys,
        i = .hdrBuild kind sid dir dev hb2 w stream fn sys ∧ kind ∉ kinds ∧ payload = [kind]) ∨
      (i = .resolveKind ∧ s.block.hdr.st ∉ kinds ∧ payload = [s.block.hdr.st])) ∧
    (status = 0x04 → ∃ buf, (i = .sidDecode buf ∧ buf.length < 2) ∨ (i = .hb2Decode buf ∧ buf.length < 1) ∨
      (i = .hdrDecode buf ∧ buf.length < 10)) ∧
    (status = 0x05 → s.params.strictLengthCheck = true ∧ ∃ buf, i = .frameDecode buf ∧
      littleEndian (buf.take 4) ≠ 10 + (buf.drop 14).length) ∧
    (status = 0x82 → ((i = .hdrEncode ∨ i = .resolveKind ∨ ∃ body, i = .msgBuild body) ∧ s.block.hdrValid = false) ∨
      (i = .frameEncode ∧ s.block.msgValid = false)) ∧
    (status = 0x83 → ¬withinItsCapacity s.params i) ∧
    (status = 0x00 → payload.length = okPayloadLength s.block i) ∧
    (status ≠ 0x00 → status ≠ 0x03 → payload = [])) ∧
  (∀ (s : State) (c : Bytes) (e : DecodeError) (rest : List Input), s.inputs = .command c :: rest → decode c = .rejected e →
    (∃ op t, c = op :: t ∧ op ∉ fixedFormats.map Prod.fst ∧ op ∉ formatV ∧
      step s = .next (answered { s with inputs := rest } [0x80])) ∨
    ((∀ op t, c = op :: t → ¬lengthMatches op c) ∧ step s = .next (answered { s with inputs := rest } [0x81])))

/-- R78 and R88 (and the last part of R96): the statuses each command can answer once the decode and capacity checks pass. -/
def Obligations.StatusesOfEachCommand : Prop :=
  ∀ (i : Instr) (s : State), withinItsCapacity s.params i →
    ∃ status payload s', answers i s status payload s' ∧ status ∈ ownStatuses i

/-- R59: an operand above the command's capacity is turned away, whatever else would be wrong. -/
def Obligations.CapacityExceeded : Prop :=
  ∀ (buf : Bytes) (s : State),
    (s.params.bodyMax.val < buf.length → exec (.msgBuild buf) s = .next (answered s [0x83])) ∧
    (14 + s.params.bodyMax.val < buf.length →
      exec (.sidDecode buf) s = .next (answered s [0x83]) ∧ exec (.hb2Decode buf) s = .next (answered s [0x83]) ∧
      exec (.hdrDecode buf) s = .next (answered s [0x83]) ∧ exec (.frameDecode buf) s = .next (answered s [0x83]))

/-- R57: every first byte outside the opcode map is answered `ILLEGAL_OPCODE`, whatever follows it. -/
def Obligations.IllegalOpcodesAreAnswered : Prop :=
  ∀ (s : State) (op : Byte) (c : Bytes) (rest : List Input), s.inputs = .command (op :: c) :: rest →
    (op = 0x00 ∨ (0x09 ≤ op.toNat ∧ op.toNat ≤ 0x0F) ∨ (0x14 ≤ op.toNat ∧ op.toNat ≤ 0x1F) ∨ 0x23 ≤ op.toNat) →
    step s = .next (answered { s with inputs := rest } [0x80])

/-- R58: every wrong length is answered `MALFORMED_COMMAND`. -/
def Obligations.WrongLengthsAreAnswered : Prop :=
  ∀ (s : State) (c : Bytes) (rest : List Input), s.inputs = .command c :: rest →
    (c = [] ∨ ∃ op t, c = op :: t ∧ (op ∈ fixedFormats.map Prod.fst ∨ op ∈ formatV) ∧ ¬lengthMatches op c) →
    step s = .next (answered { s with inputs := rest } [0x81])

/-- R99: for every state and every transaction, the one status answered is the first of the priority list. -/
def Obligations.StatusIsTheFirstOfThePriorityList : Prop :=
  ∀ (s : State) (c : Bytes) (rest : List Input), s.inputs = .command c :: rest →
    ∃ payload s', step s = .next s' ∧
      s'.responses = s.responses ++ [statusByPriority s.params s.block c :: payload]

/-- R98: a transaction that ends with another status than `OK` writes no state, and leaves the next one to run as if it had not been sent. -/
def Obligations.ErrorsWriteNoState : Prop :=
  ∀ (s : State) (c : Bytes) (rest : List Input), s.inputs = .command c :: rest →
    ∃ status payload s', step s = .next s' ∧ s'.responses = s.responses ++ [status :: payload] ∧
      s'.inputs = rest ∧ (status ≠ 0x00 → s' = answered { s with inputs := rest } (status :: payload))

/-- R35: every command is idempotent, and the commands that only read leave all state unchanged. -/
def Obligations.CommandsAreIdempotent : Prop :=
  (∀ (s : State) (c : Bytes) (rest : List Input), s.inputs = .command c :: .command c :: rest →
    ∃ s1 s2 r, step s = .next s1 ∧ step s1 = .next s2 ∧ s1.responses = s.responses ++ [r] ∧
      s2.responses = s.responses ++ [r, r] ∧ s2.block = s1.block) ∧
  (∀ (i : Instr) (s s' : State), (i = .hdrEncode ∨ i = .resolveKind ∨ i = .frameEncode) →
    exec i s = .next s' → s'.block = s.block)

/-- R113: `NOT_INITIALISED` is answered exactly where the needed register has not been written. -/
def Obligations.NotInitialisedExactlyBeforeTheFirstWrite : Prop :=
  ∀ (i : Instr) (s : State), withinItsCapacity s.params i →
    ∃ status payload s', answers i s status payload s' ∧
      (status = 0x82 ↔
        (readsHdr i = true ∧ s.block.hdrValid = false) ∨ (i = .frameEncode ∧ s.block.msgValid = false))

/-! ### Steps, runs and reset -/

/-- A step runs the instruction that the waiting transaction decodes to, on the state from which the transaction has been taken (R60's last line).
The other two clauses are the model's own: with nothing waiting, nothing happens (notes/assumptions/6.md), and the step after
`withFetchWord` runs what `decodeTableWord` reads (notes/assumptions/9.md). -/
def Obligations.StepRunsTheDecodedInstruction : Prop :=
  (∀ (s : State) (c : Bytes) (i : Instr) (rest : List Input), s.inputs = .command c :: rest → decode c = .instr i →
    step s = exec i { s with inputs := rest }) ∧
  (∀ s : State, s.inputs = [] → step s = .next s) ∧
  (∀ (s : State) (nbits w : Nat) (i : Instr), decodeTableWord nbits w = some i → step (s.withFetchWord nbits w) = exec i s)

/-- R26: after reset both valid bits are 0, in every instance. -/
def Obligations.ResetClearsValidBits : Prop :=
  State.reset.block.hdrValid = false ∧ State.reset.block.msgValid = false ∧
    ∀ p : Params, (State.resetWith p).block.hdrValid = false ∧ (State.resetWith p).block.msgValid = false

/-- R111 and R112: the reset input clears the valid bits, produces no response, leaves what comes after it waiting, and changes no parameter;
a reset that stands behind a command takes effect after that command's response; and no step of any kind changes a parameter. -/
def Obligations.ResetInputClearsOnlyTheBlock : Prop :=
  (∀ (s : State) (rest : List Input), s.inputs = .reset :: rest →
    ∃ s', step s = .next s' ∧ s'.block.hdrValid = false ∧ s'.block.msgValid = false ∧ s'.responses = s.responses ∧
      s'.inputs = rest ∧ s'.params = s.params) ∧
  (∀ (s : State) (c : Bytes) (rest : List Input), s.inputs = .command c :: .reset :: rest →
    ∃ r s1 s2, step s = .next s1 ∧ s1.responses = s.responses ++ [r] ∧ s1.inputs = .reset :: rest ∧
      step s1 = .next s2 ∧ s2.responses = s.responses ++ [r] ∧
      s2.block.hdrValid = false ∧ s2.block.msgValid = false) ∧
  (∀ s s' : State, step s = .next s' → s'.params = s.params)

/-- R110: the block never stops: whatever is presented, in as many steps as there are inputs every command has its one response. -/
def Obligations.EveryCommandIsAnswered : Prop :=
  ∀ s : State, ∃ s', Sys2Proof.core.run s.inputs.length s = .next s' ∧ s'.inputs = [] ∧
    s'.responses.length = s.responses.length + (commandsOf s.inputs).length ∧ s.responses <+: s'.responses

/-- R38: a command sees every earlier write and no later command: presenting more inputs behind changes nothing of the run before them. -/
def Obligations.LaterInputsChangeNothingEarlier : Prop :=
  ∀ (s : State) (later : List Input) (s' : State), Sys2Proof.core.run s.inputs.length s = .next s' →
    Sys2Proof.core.run s.inputs.length { s with inputs := s.inputs ++ later } = .next { s' with inputs := later }

/-- R117: the leaf codec commands need no care: one of them falling between other commands changes nothing of the run but its own response. -/
def Obligations.LeafCommandMayFallAnywhere : Prop :=
  ∀ (s : State) (c : Bytes) (i : Instr), decode c = .instr i → isLeafCodec i = true →
    ∃ r : Bytes, ∀ k : Nat, ∃ s' extra,
      Sys2Proof.core.run k s = .next s' ∧ s'.responses = s.responses ++ extra ∧
      Sys2Proof.core.run (k + 1) { s with inputs := .command c :: s.inputs } =
        .next { s' with responses := s.responses ++ r :: extra }

/-! ### Encoding and assembler -/

/-- R64: the encoding examples of the spec: each command is encoded as the bytes written there, and those bytes decode to it. -/
def Obligations.WrittenWordsDecode : Prop :=
  ∀ p ∈ ([(.hdrBuild 1 0 0 0 0 0 0 0 0x11111111,
        [0x10, 0x01, 0x00, 0x00, 0x00, 0x00, 0x00, 0x00, 0x00, 0x00, 0x00, 0x00, 0x11, 0x11, 0x11, 0x11]),
      (.msgBuild [], [0x20, 0x00, 0x00, 0x00, 0x00]),
      (.frameEncode, [0x21]),
      (.sidPack 0x8000 0x0001, [0x01, 0x00, 0x80, 0x01, 0x00]),
      (.hb2Pack 0x80 0x01, [0x05, 0x80, 0x01])] : List (Instr × Bytes)),
    encode p.1 = p.2 ∧ decode p.2 = .instr p.1

/-- Every well-formed instruction is read back from its encoding, with every operand at every value. -/
def Obligations.DecodeOfEncodeIsTheInstruction : Prop :=
  ∀ i : Instr, i.wellFormed = true → decode (encode i) = .instr i

/-- Every transaction the decoder accepts is the encoding of what it reads, of a well-formed instruction: no accepted bit is dropped. -/
def Obligations.EncodeOfDecodeIsTheTransaction : Prop :=
  ∀ (c : Bytes) (i : Instr), decode c = .instr i → encode i = c ∧ i.wellFormed = true

/-- R63: the expansions, and that any value in an operand written as 0 would give the same header. -/
def Obligations.PseudoInstructionExpansions : Prop :=
  ∀ (sid sid' dir dir' dev dev' : U16) (hb2 hb2' w w' stream stream' fn fn' : Byte) (sys : U32) (body : Bytes),
    (PseudoInstr.data dir dev w stream fn sys).expand = [.hdrBuild 0 0 dir dev 0 w stream fn sys] ∧
    (PseudoInstr.selectReq sys).expand = [.hdrBuild 1 0 0 0 0 0 0 0 sys] ∧
    (PseudoInstr.selectRsp sid fn sys).expand = [.hdrBuild 2 sid 0 0 0 0 0 fn sys] ∧
    (PseudoInstr.deselectReq sys).expand = [.hdrBuild 3 0 0 0 0 0 0 0 sys] ∧
    (PseudoInstr.deselectRsp sid fn sys).expand = [.hdrBuild 4 sid 0 0 0 0 0 fn sys] ∧
    (PseudoInstr.linktestReq sys).expand = [.hdrBuild 5 0 0 0 0 0 0 0 sys] ∧
    (PseudoInstr.linktestRsp sys).expand = [.hdrBuild 6 0 0 0 0 0 0 0 sys] ∧
    (PseudoInstr.rejectReq sid hb2 fn sys).expand = [.hdrBuild 7 sid 0 0 hb2 0 0 fn sys] ∧
    (PseudoInstr.separateReq sys).expand = [.hdrBuild 9 0 0 0 0 0 0 0 sys] ∧
    (PseudoInstr.send body).expand = [.msgBuild body, .frameEncode] ∧
    ∀ s : State,
      exec (.hdrBuild 0 0 dir dev 0 w stream fn sys) s = exec (.hdrBuild 0 sid' dir dev hb2' w stream fn sys) s ∧
      (∀ kind ∈ ([1, 3, 5, 6, 9] : List Byte), exec (.hdrBuild kind 0 0 0 0 0 0 0 sys) s =
        exec (.hdrBuild kind sid' dir' dev' hb2' w' stream' fn' sys) s) ∧
      (∀ kind ∈ ([2, 4] : List Byte), exec (.hdrBuild kind sid 0 0 0 0 0 fn sys) s =
        exec (.hdrBuild kind sid dir' dev' hb2' w' stream' fn sys) s) ∧
      exec (.hdrBuild 7 sid 0 0 hb2 0 0 fn sys) s = exec (.hdrBuild 7 sid dir' dev' hb2 w' stream' fn sys) s

/-- R62: the assembler takes a command's operands exactly when each fits its field, and never truncates one. -/
def Obligations.AssemblerNeverTruncates : Prop :=
  (∀ (i : Instr), i.wellFormed = true → assembleCommand i.opcode (writtenOperands i) = some i) ∧
  (∀ (o : Opcode) (ops : List AsmOperand) (i : Instr), (∀ k, AsmOperand.kind k ∉ ops) →
    assembleCommand o ops = some i → i.opcode = o ∧ i.wellFormed = true ∧ ops = writtenOperands i) ∧
  (∀ (k : MessageKind) (ops : List AsmOperand),
    assembleCommand .hdrBuild (.kind k :: ops) = assembleCommand .hdrBuild (.number k.sType.toNat :: ops))
end

