-- ==== Sys2Proof/Laws/Bytes.lean ====
section
/-! SUPPORT. Laws of the little-endian helpers (R10): assembling and taking apart are inverse, and what each is as a number. -/

namespace Sys2Proof

@[simp] theorem byteAt_cons_zero (a : Byte) (b : Bytes) : byteAt (a :: b) 0 = a := rfl

@[simp] theorem byteAt_cons_succ (a : Byte) (b : Bytes) (i : Nat) : byteAt (a :: b) (i + 1) = byteAt b i := rfl

theorem byteAt_eq_getElem (b : Bytes) (i : Nat) (h : i < b.length) : byteAt b i = b[i] := by
  simp [byteAt, h]

@[simp] theorem length_bytes16 (v : U16) : (bytes16 v).length = 2 := rfl

@[simp] theorem length_bytes32 (v : U32) : (bytes32 v).length = 4 := rfl

/-- Two bytes put together low byte first and taken apart again. -/
theorem bytes16_le16 (b : Bytes) (off : Nat) : bytes16 (le16 b off) = [byteAt b off, byteAt b (off + 1)] := by
  simp only [bytes16, le16, List.cons.injEq, and_true]
  constructor <;> (ext i hi; simp; grind)

/-- Four bytes put together low byte first and taken apart again. -/
theorem bytes32_le32 (b : Bytes) (off : Nat) :
    bytes32 (le32 b off) = [byteAt b off, byteAt b (off + 1), byteAt b (off + 2), byteAt b (off + 3)] := by
  simp only [bytes32, le32, List.cons.injEq, and_true]
  refine ⟨?_, ?_, ?_, ?_⟩ <;> (ext i hi; simp; grind)

/-- A 16-bit value taken apart and put together again. -/
theorem le16_of_bytes (b : Bytes) (off : Nat) (v : U16) (h0 : byteAt b off = v.extractLsb' 0 8)
    (h1 : byteAt b (off + 1) = v.extractLsb' 8 8) : le16 b off = v := by
  ext i hi
  simp only [le16, h0, h1]
  rcases Nat.lt_or_ge i 8 with h | h
  · simp [h, hi]
  · simp [h, hi]; grind

/-- A 32-bit value taken apart and put together again. -/
theorem le32_of_bytes (b : Bytes) (off : Nat) (v : U32) (h0 : byteAt b off = v.extractLsb' 0 8)
    (h1 : byteAt b (off + 1) = v.extractLsb' 8 8) (h2 : byteAt b (off + 2) = v.extractLsb' 16 8)
    (h3 : byteAt b (off + 3) = v.extractLsb' 24 8) : le32 b off = v := by
  ext i hi
  simp only [le32, h0, h1, h2, h3]
  rcases Nat.lt_or_ge i 8 with h | h
  · simp [h, hi]; grind
  rcases Nat.lt_or_ge i 16 with h' | h'
  · simp [h, hi]; grind
  rcases Nat.lt_or_ge i 24 with h'' | h''
  · simp [h, hi]; grind
  · simp [h, hi]; grind

/-- `le16(bytes16(v) ++ b, 0) = v`. -/
@[simp] theorem le16_bytes16_append (v : U16) (b : Bytes) : le16 (bytes16 v ++ b) 0 = v :=
  le16_of_bytes _ _ _ rfl rfl

/-- `le32(bytes32(v) ++ b, 0) = v`. -/
@[simp] theorem le32_bytes32_append (v : U32) (b : Bytes) : le32 (bytes32 v ++ b) 0 = v :=
  le32_of_bytes _ _ _ rfl rfl rfl rfl

/-- `le16` as a number. -/
theorem toNat_le16 (b : Bytes) (off : Nat) :
    (le16 b off).toNat = (byteAt b off).toNat + 256 * (byteAt b (off + 1)).toNat := by
  have h0 := (byteAt b off).isLt
  have h1 := (byteAt b (off + 1)).isLt
  have key : (le16 b off) = BitVec.ofNat 16 ((byteAt b off).toNat + 256 * (byteAt b (off + 1)).toNat) := by
    apply le16_of_bytes <;> apply BitVec.eq_of_toNat_eq <;>
      simp only [BitVec.extractLsb'_toNat, BitVec.toNat_ofNat, Nat.shiftRight_eq_div_pow] <;> omega
  rw [key, BitVec.toNat_ofNat]
  omega

/-- `le32` as a number. -/
theorem toNat_le32 (b : Bytes) (off : Nat) :
    (le32 b off).toNat = (byteAt b off).toNat + 256 * (byteAt b (off + 1)).toNat
      + 65536 * (byteAt b (off + 2)).toNat + 16777216 * (byteAt b (off + 3)).toNat := by
  have h0 := (byteAt b off).isLt
  have h1 := (byteAt b (off + 1)).isLt
  have h2 := (byteAt b (off + 2)).isLt
  have h3 := (byteAt b (off + 3)).isLt
  have key : (le32 b off) = BitVec.ofNat 32 ((byteAt b off).toNat + 256 * (byteAt b (off + 1)).toNat
      + 65536 * (byteAt b (off + 2)).toNat + 16777216 * (byteAt b (off + 3)).toNat) := by
    apply le32_of_bytes <;> apply BitVec.eq_of_toNat_eq <;>
      simp only [BitVec.extractLsb'_toNat, BitVec.toNat_ofNat, Nat.shiftRight_eq_div_pow] <;> omega
  rw [key, BitVec.toNat_ofNat]
  omega

end Sys2Proof
end

