-- ==== Sys2Proof/Laws/Decode.lean ====
section
/-! SUPPORT. Laws of the opcode map, the formats and the decoder's checks (30_encoding.md R53 to R60). -/

namespace Sys2Proof

/-- No two opcodes share a byte (R56). -/
theorem opcode_bytes_distinct : (Opcode.all.map Opcode.byte).Pairwise (· ≠ ·) := by decide

/-- The list of opcodes is complete. -/
theorem Opcode.mem_all (o : Opcode) : o ∈ Opcode.all := by cases o <;> decide

/-- An opcode's byte is read back as that opcode. -/
@[simp] theorem Opcode.ofByte_byte (o : Opcode) : Opcode.ofByte o.byte = some o := by cases o <;> rfl

/-- A first byte read as an opcode is that opcode's byte. -/
theorem Opcode.byte_of_ofByte {b : Byte} {o : Opcode} (h : Opcode.ofByte b = some o) : o.byte = b := by
  simpa using List.find?_some h

/-- A first byte is illegal exactly when no opcode has it (R57). -/
theorem Opcode.ofByte_eq_none {b : Byte} : Opcode.ofByte b = none ↔ ∀ o : Opcode, o.byte ≠ b := by
  simp [Opcode.ofByte, Opcode.mem_all]

/-- What the decoder makes of a transaction that has a first byte. -/
theorem decode_cons (op : Byte) (t : Bytes) :
    decode (op :: t) =
      match Opcode.ofByte op with
      | none => .rejected .illegalOpcode
      | some o => if o.format.lengthRight (op :: t) then .instr (o.operands (op :: t)) else .rejected .malformedCommand := rfl

/-- What the decoder makes of a transaction that begins with an opcode. -/
theorem decode_opcode (o : Opcode) (t : Bytes) :
    decode (o.byte :: t) =
      if o.format.lengthRight (o.byte :: t) then .instr (o.operands (o.byte :: t)) else .rejected .malformedCommand := by
  rw [decode_cons, Opcode.ofByte_byte]

/-- Whatever is decoded began with its opcode, had the length of its format, and is what the operands say. -/
theorem decode_eq_instr {c : Bytes} {i : Instr} (h : decode c = .instr i) :
    ∃ o t, c = Opcode.byte o :: t ∧ o.format.lengthRight c = true ∧ o.operands c = i := by
  cases c with
  | nil => cases h
  | cons op t =>
    rw [decode_cons] at h
    split at h
    · cases h
    next o ho =>
      split at h
      next hl =>
        injection h with h
        exact ⟨o, t, by rw [Opcode.byte_of_ofByte ho], hl, h⟩
      · cases h

/-- The operands of an opcode make an instruction of that opcode. -/
@[simp] theorem Opcode.opcode_operands (o : Opcode) (c : Bytes) : (o.operands c).opcode = o := by cases o <;> rfl

/-- A format V field `n` and its buffer, as the decoder finds them. -/
theorem lengthRight_v (op : Byte) (t : Bytes) :
    Format.v.lengthRight (op :: t) = true ↔ 4 ≤ t.length ∧ t.length = 4 + (le32 t 0).toNat := by
  have h : le32 (op :: t) 1 = le32 t 0 := rfl
  simp only [Format.lengthRight, Format.commandLength, h, List.length_cons, Bool.and_eq_true, decide_eq_true_eq,
    beq_iff_eq]
  omega

/-- The field `n` that the encoder writes is the buffer's length when it fits. -/
theorem le32_encodeBuffer (buf : Bytes) (h : buf.length < 4294967296) : (le32 (encodeBuffer buf) 0).toNat = buf.length := by
  rw [encodeBuffer, le32_bytes32_append, BitVec.toNat_ofNat]
  omega

@[simp] theorem length_encodeBuffer (buf : Bytes) : (encodeBuffer buf).length = 4 + buf.length := by
  simp [encodeBuffer]

@[simp] theorem drop_encodeBuffer (buf : Bytes) : (encodeBuffer buf).drop 4 = buf := rfl

/-- The encoding of a format V command has its format's length. -/
theorem lengthRight_encodeBuffer {op : Byte} {buf : Bytes} (h : Bytes.fitsLengthField buf = true) :
    Format.v.lengthRight (op :: encodeBuffer buf) = true := by
  have h' : buf.length < 4294967296 := by simpa [Bytes.fitsLengthField] using h
  rw [lengthRight_v, le32_encodeBuffer buf h', length_encodeBuffer]
  omega

end Sys2Proof
end

