-- ==== Sys2Proof/Laws/State.lean ====
section
/-! SUPPORT. The laws of the state's updates: one lemma per field per update, so that no later proof unfolds a record update. -/

namespace Sys2Proof.Machine

/-! `writeHdr` -/

@[simp] theorem writeHdr_params (h : Header) (s : State) : (writeHdr h s).params = s.params := rfl
@[simp] theorem writeHdr_inputs (h : Header) (s : State) : (writeHdr h s).inputs = s.inputs := rfl
@[simp] theorem writeHdr_responses (h : Header) (s : State) : (writeHdr h s).responses = s.responses := rfl
@[simp] theorem writeHdr_hdr (h : Header) (s : State) : (writeHdr h s).block.hdr = h := rfl
@[simp] theorem writeHdr_hdrValid (h : Header) (s : State) : (writeHdr h s).block.hdrValid = true := rfl
@[simp] theorem writeHdr_msgValid (h : Header) (s : State) : (writeHdr h s).block.msgValid = s.block.msgValid := rfl
@[simp] theorem writeHdr_msgLen (h : Header) (s : State) : (writeHdr h s).block.msgLen = s.block.msgLen := rfl
@[simp] theorem writeHdr_msgHdr (h : Header) (s : State) : (writeHdr h s).block.msgHdr = s.block.msgHdr := rfl
@[simp] theorem writeHdr_msgBody (h : Header) (s : State) : (writeHdr h s).block.msgBody = s.block.msgBody := rfl

/-! `writeMsg` -/

@[simp] theorem writeMsg_params (l : U32) (h : Header) (b : Bytes) (s : State) : (writeMsg l h b s).params = s.params := rfl
@[simp] theorem writeMsg_inputs (l : U32) (h : Header) (b : Bytes) (s : State) : (writeMsg l h b s).inputs = s.inputs := rfl
@[simp] theorem writeMsg_responses (l : U32) (h : Header) (b : Bytes) (s : State) :
    (writeMsg l h b s).responses = s.responses := rfl
@[simp] theorem writeMsg_hdr (l : U32) (h : Header) (b : Bytes) (s : State) :
    (writeMsg l h b s).block.hdr = s.block.hdr := rfl
@[simp] theorem writeMsg_hdrValid (l : U32) (h : Header) (b : Bytes) (s : State) :
    (writeMsg l h b s).block.hdrValid = s.block.hdrValid := rfl
@[simp] theorem writeMsg_msgValid (l : U32) (h : Header) (b : Bytes) (s : State) :
    (writeMsg l h b s).block.msgValid = true := rfl
@[simp] theorem writeMsg_msgLen (l : U32) (h : Header) (b : Bytes) (s : State) : (writeMsg l h b s).block.msgLen = l := rfl
@[simp] theorem writeMsg_msgHdr (l : U32) (h : Header) (b : Bytes) (s : State) : (writeMsg l h b s).block.msgHdr = h := rfl
@[simp] theorem writeMsg_msgBody (l : U32) (h : Header) (b : Bytes) (s : State) :
    (writeMsg l h b s).block.msgBody = b := rfl

/-! `resetBlock`, `acceptInput`, `presentNext` -/

@[simp] theorem resetBlock_params (s : State) : (resetBlock s).params = s.params := rfl
@[simp] theorem resetBlock_inputs (s : State) : (resetBlock s).inputs = s.inputs := rfl
@[simp] theorem resetBlock_responses (s : State) : (resetBlock s).responses = s.responses := rfl
@[simp] theorem resetBlock_block (s : State) : (resetBlock s).block = Block.reset := rfl

@[simp] theorem acceptInput_params (r : List Input) (s : State) : (acceptInput r s).params = s.params := rfl
@[simp] theorem acceptInput_block (r : List Input) (s : State) : (acceptInput r s).block = s.block := rfl
@[simp] theorem acceptInput_responses (r : List Input) (s : State) : (acceptInput r s).responses = s.responses := rfl
@[simp] theorem acceptInput_inputs (r : List Input) (s : State) : (acceptInput r s).inputs = r := rfl

@[simp] theorem presentNext_params (c : Bytes) (s : State) : (presentNext c s).params = s.params := rfl
@[simp] theorem presentNext_block (c : Bytes) (s : State) : (presentNext c s).block = s.block := rfl
@[simp] theorem presentNext_responses (c : Bytes) (s : State) : (presentNext c s).responses = s.responses := rfl
@[simp] theorem presentNext_inputs (c : Bytes) (s : State) : (presentNext c s).inputs = .command c :: s.inputs := rfl

/-- A transaction presented and accepted leaves the state as it was. -/
@[simp] theorem acceptInput_presentNext (c : Bytes) (s : State) : acceptInput s.inputs (presentNext c s) = s := rfl

/-! `Block.reset` -/

@[simp] theorem Block.reset_hdrValid : Block.reset.hdrValid = false := rfl
@[simp] theorem Block.reset_msgValid : Block.reset.msgValid = false := rfl
@[simp] theorem Block.reset_msgBody : Block.reset.msgBody = [] := rfl

end Sys2Proof.Machine
end

