-- ==== Sys2Proof/Laws/Ops.lean ====
section
/-! SUPPORT. What each shared operation can do, said once: proofs cite these and do not unfold the operation. -/

namespace Sys2Proof.Machine

/-- `respond` answers a next state, which differs by the one response. -/
theorem respond_eq (st : Status) (p : Bytes) (s : State) :
    respond st p s = .next { s with responses := s.responses ++ [st.code :: p] } := rfl

/-- `raise` is `respond`: it writes no state. -/
theorem raise_eq (e : Status) (info : Bytes) (s : State) :
    raise e info s = .next { s with responses := s.responses ++ [e.code :: info] } := rfl

/-- Within capacity the command's own rule runs. -/
theorem withinCapacity_of_le {cap : Nat} {buf : Bytes} (h : buf.length ≤ cap) (s : State)
    (rule : Host.Outcome State Fault Refusal) : withinCapacity cap buf s rule = rule := by
  simp [withinCapacity, Nat.not_lt.mpr h]

/-- Above capacity the command is turned away. -/
theorem withinCapacity_of_lt {cap : Nat} {buf : Bytes} (h : cap < buf.length) (s : State)
    (rule : Host.Outcome State Fault Refusal) : withinCapacity cap buf s rule = raise .capacityExceeded [] s := by
  simp [withinCapacity, h]

/-- Everything the capacity check can answer. -/
theorem withinCapacity_next {cap : Nat} {buf : Bytes} {s s' : State} {rule : Host.Outcome State Fault Refusal}
    (h : withinCapacity cap buf s rule = .next s') :
    (cap < buf.length ∧ raise .capacityExceeded [] s = .next s') ∨ (buf.length ≤ cap ∧ rule = .next s') := by
  unfold withinCapacity at h
  split at h
  next hc => exact .inl ⟨hc, h⟩
  next hc => exact .inr ⟨Nat.not_lt.mp hc, h⟩

/-- A valid `HDR` is handed to the rule. -/
theorem readHdr_valid {s : State} (h : s.block.hdrValid = true) (rule : Header → Host.Outcome State Fault Refusal) :
    readHdr s rule = rule s.block.hdr := by simp [readHdr, h]

/-- An unwritten `HDR` is refused. -/
theorem readHdr_invalid {s : State} (h : s.block.hdrValid = false) (rule : Header → Host.Outcome State Fault Refusal) :
    readHdr s rule = raise .notInitialised [] s := by simp [readHdr, h]

/-- A valid message is handed to the rule. -/
theorem readMsg_valid {s : State} (h : s.block.msgValid = true)
    (rule : U32 → Header → Bytes → Host.Outcome State Fault Refusal) :
    readMsg s rule = rule s.block.msgLen s.block.msgHdr s.block.msgBody := by simp [readMsg, h]

/-- An unwritten message is refused. -/
theorem readMsg_invalid {s : State} (h : s.block.msgValid = false)
    (rule : U32 → Header → Bytes → Host.Outcome State Fault Refusal) :
    readMsg s rule = raise .notInitialised [] s := by simp [readMsg, h]

/-- A rejected transaction is answered with its verdict's status and writes no state. -/
theorem rejectCommand_eq (e : DecodeError) (s : State) :
    rejectCommand e s = .next { s with responses := s.responses ++ [[(decodeErrorStatus e).code]] } := rfl

/-! The kinds. -/

/-- A kind's S-Type resolves to that kind. -/
@[simp] theorem MessageKind.ofSType_sType (k : MessageKind) : MessageKind.ofSType k.sType = some k := by cases k <;> rfl

/-- A byte that resolves is its kind's S-Type. -/
theorem MessageKind.sType_of_ofSType {b : Byte} {k : MessageKind} (h : MessageKind.ofSType b = some k) : k.sType = b := by
  simpa using List.find?_some h

/-- The dispatch multiplexer always writes P-Type 0, the kind as S-Type, and the SystemBytes it was given. -/
theorem hdrBuild_fixed (k : MessageKind) (sid dir dev : U16) (hb2 w stream fn : Byte) (sys : U32) :
    (hdrBuild k sid dir dev hb2 w stream fn sys).pt = 0 ∧ (hdrBuild k sid dir dev hb2 w stream fn sys).st = k.sType ∧
      (hdrBuild k sid dir dev hb2 w stream fn sys).sys = sys := by
  cases k <;> exact ⟨rfl, rfl, rfl⟩

/-! The wire layouts. -/

@[simp] theorem length_hdrBytes (h : Header) : (hdrBytes h).length = 10 := rfl

@[simp] theorem length_frameBytes (len : U32) (h : Header) (body : Bytes) :
    (frameBytes len h body).length = 14 + body.length := by
  simp [frameBytes]
  omega

/-- The length check in words (R95). -/
theorem lengthRefused_eq_true {p : Params} {len : U32} {body : Bytes} :
    lengthRefused p len body = true ↔ p.strictLengthCheck = true ∧ len.toNat ≠ 10 + body.length := by
  simp [lengthRefused]

theorem inputMax_eq (p : Params) : inputMax p = 14 + p.bodyMax.val := rfl

end Sys2Proof.Machine
end

