-- ==== Sys2Proof/Laws/Exec.lean ====
section
/-! SUPPORT. What a command and a step can do, said once. -/

namespace Sys2Proof.Machine

/-- `s` after a command that answers `r` and leaves the block as `b`. -/
def State.answer (s : State) (b : Block) (r : Bytes) : State := { s with block := b, responses := s.responses ++ [r] }

@[simp] theorem State.answer_params (s : State) (b : Block) (r : Bytes) : (s.answer b r).params = s.params := rfl
@[simp] theorem State.answer_inputs (s : State) (b : Block) (r : Bytes) : (s.answer b r).inputs = s.inputs := rfl
@[simp] theorem State.answer_block (s : State) (b : Block) (r : Bytes) : (s.answer b r).block = b := rfl
@[simp] theorem State.answer_responses (s : State) (b : Block) (r : Bytes) :
    (s.answer b r).responses = s.responses ++ [r] := rfl

/-- An outcome that is an answer at `s`: a next state that differs in the block and by one response, and in the block only on `OK`. -/
def Answer (s : State) (o : Host.Outcome State Fault Refusal) : Prop :=
  ∃ (st : Status) (p : Bytes) (b : Block), o = .next (s.answer b (st.code :: p)) ∧ (st ≠ .ok → b = s.block)

theorem Answer.respond_ok (s : State) (b : Block) (p : Bytes) :
    Answer s (.next (s.answer b (Status.ok.code :: p))) := ⟨.ok, p, b, rfl, fun h => absurd rfl h⟩

theorem Answer.raise (s : State) (e : Status) (info : Bytes) : Answer s (raise e info s) :=
  ⟨e, info, s.block, rfl, fun _ => rfl⟩

theorem Answer.withinCapacity {cap : Nat} {buf : Bytes} {s : State} {rule : Host.Outcome State Fault Refusal}
    (h : Answer s rule) : Answer s (withinCapacity cap buf s rule) := by
  unfold Machine.withinCapacity
  split
  · exact .raise s _ _
  · exact h

theorem Answer.readHdr {s : State} {rule : Header → Host.Outcome State Fault Refusal}
    (h : Answer s (rule s.block.hdr)) : Answer s (readHdr s rule) := by
  unfold Machine.readHdr
  split
  · exact h
  · exact .raise s _ _

theorem Answer.readMsg {s : State} {rule : U32 → Header → Bytes → Host.Outcome State Fault Refusal}
    (h : Answer s (rule s.block.msgLen s.block.msgHdr s.block.msgBody)) : Answer s (readMsg s rule) := by
  unfold Machine.readMsg
  split
  · exact h
  · exact .raise s _ _

theorem Answer.ite {c : Prop} [Decidable c] {s : State} {a b : Host.Outcome State Fault Refusal}
    (ha : Answer s a) (hb : Answer s b) : Answer s (if c then a else b) := by
  split
  · exact ha
  · exact hb

/-- Every command answers (R109, R110), and one that answers another status than `OK` leaves the block as it was (R98). -/
theorem exec_answers (i : Instr) (s : State) : Answer s (exec i s) := by
  cases i with
  | sidPack dir dev => exact .respond_ok s s.block _
  | sidUnpack sid => exact .respond_ok s s.block _
  | sidEncode sid => exact .respond_ok s s.block _
  | sidDecode buf => exact .withinCapacity (.ite (.raise s _ _) (.respond_ok s s.block _))
  | hb2Pack w t => exact .respond_ok s s.block _
  | hb2Unpack hb2 => exact .respond_ok s s.block _
  | hb2Encode hb2 => exact .respond_ok s s.block _
  | hb2Decode buf => exact .withinCapacity (.ite (.raise s _ _) (.respond_ok s s.block _))
  | hdrBuild kind sid dir dev hb2 w stream fn sys =>
    show Answer s (execHdrBuild kind sid dir dev hb2 w stream fn sys s)
    unfold execHdrBuild
    split
    · exact .raise s _ _
    · exact .respond_ok s (writeHdr _ s).block _
  | hdrDecode buf => exact .withinCapacity (.ite (.raise s _ _) (.respond_ok s (writeHdr _ s).block _))
  | hdrEncode => exact Answer.readHdr (rule := fun h => respond .ok (hdrBytes h) s) (.respond_ok s s.block _)
  | resolveKind =>
    show Answer s (execResolveKind s)
    refine .readHdr ?_
    split
    · exact .raise s _ _
    · exact .respond_ok s s.block _
  | msgBuild body =>
    refine .withinCapacity (Answer.readHdr (s := s) ?_)
    exact .respond_ok s (writeMsg _ _ _ s).block _
  | frameEncode =>
    exact Answer.readMsg (rule := fun len h body => respond .ok (frameBytes len h body) s) (.respond_ok s s.block _)
  | frameDecode buf =>
    exact .withinCapacity (.ite (.raise s _ _) (.ite (.raise s _ _) (.respond_ok s (writeHdr _ (writeMsg _ _ _ s)).block _)))

/-! Each command that has a condition, as one equation over its conditions. -/

theorem exec_sidDecode (buf : Bytes) (s : State) :
    exec (.sidDecode buf) s =
      if inputMax s.params < buf.length then raise .capacityExceeded [] s
      else if buf.length < 2 then raise .sizeError [] s
      else respond .ok (bytes16 (le16 buf 0)) s := rfl

theorem exec_hb2Decode (buf : Bytes) (s : State) :
    exec (.hb2Decode buf) s =
      if inputMax s.params < buf.length then raise .capacityExceeded [] s
      else if buf.length < 1 then raise .sizeError [] s
      else respond .ok [byteAt buf 0] s := rfl

theorem exec_hdrBuild (kind : Byte) (sid dir dev : U16) (hb2 w stream fn : Byte) (sys : U32) (s : State) :
    exec (.hdrBuild kind sid dir dev hb2 w stream fn sys) s =
      match MessageKind.ofSType kind with
      | none => raise .unknownMessageKind [kind] s
      | some k => respond .ok [] (writeHdr (hdrBuild k sid dir dev hb2 w stream fn sys) s) := rfl

theorem exec_hdrDecode (buf : Bytes) (s : State) :
    exec (.hdrDecode buf) s =
      if inputMax s.params < buf.length then raise .capacityExceeded [] s
      else if buf.length < 10 then raise .sizeError [] s
      else respond .ok [] (writeHdr (hdrDecode buf) s) := rfl

theorem exec_hdrEncode (s : State) :
    exec .hdrEncode s =
      if s.block.hdrValid then respond .ok (hdrBytes s.block.hdr) s else raise .notInitialised [] s := rfl

theorem exec_resolveKind (s : State) :
    exec .resolveKind s =
      if s.block.hdrValid then
        match MessageKind.ofSType s.block.hdr.st with
        | none => raise .unknownMessageKind [s.block.hdr.st] s
        | some _ => respond .ok [s.block.hdr.st] s
      else raise .notInitialised [] s := rfl

theorem exec_msgBuild (body : Bytes) (s : State) :
    exec (.msgBuild body) s =
      if s.params.bodyMax.val < body.length then raise .capacityExceeded [] s
      else if s.block.hdrValid then
        respond .ok [] (writeMsg (BitVec.ofNat 32 (10 + body.length)) s.block.hdr body s)
      else raise .notInitialised [] s := rfl

theorem exec_frameEncode (s : State) :
    exec .frameEncode s =
      if s.block.msgValid then respond .ok (frameBytes s.block.msgLen s.block.msgHdr s.block.msgBody) s
      else raise .notInitialised [] s := rfl

theorem exec_frameDecode (buf : Bytes) (s : State) :
    exec (.frameDecode buf) s =
      if inputMax s.params < buf.length then raise .capacityExceeded [] s
      else if buf.length < 14 then raise .tooShort [] s
      else if lengthRefused s.params (le32 buf 0) (buf.drop 14) then raise .lengthMismatch [] s
      else
        respond .ok [] (writeHdr (hdrDecode ((buf.drop 4).take 10))
          (writeMsg (le32 buf 0) (hdrDecode ((buf.drop 4).take 10)) (buf.drop 14) s)) := rfl

/-! One step. -/

/-- With nothing presented, nothing happens. -/
theorem step_idle {s : State} (h : s.inputs = []) : step s = .next s := by simp [step, h]

/-- A reset is taken. -/
theorem step_reset {s : State} {rest : List Input} (h : s.inputs = .reset :: rest) :
    step s = .next (resetBlock (acceptInput rest s)) := by simp [step, h]

/-- A transaction that decodes is run. -/
theorem step_instr {s : State} {c : Bytes} {i : Instr} {rest : List Input} (h : s.inputs = .command c :: rest)
    (hd : decode c = .instr i) : step s = exec i (acceptInput rest s) := by simp [step, h, hd]

/-- A transaction that the decoder rejects is answered. -/
theorem step_rejected {s : State} {c : Bytes} {e : DecodeError} {rest : List Input} (h : s.inputs = .command c :: rest)
    (hd : decode c = .rejected e) : step s = rejectCommand e (acceptInput rest s) := by simp [step, h, hd]

/-- Every transaction is answered. -/
theorem step_command_answers {s : State} {c : Bytes} {rest : List Input} (h : s.inputs = .command c :: rest) :
    Answer (acceptInput rest s) (step s) := by
  cases hd : decode c with
  | instr i => exact step_instr h hd ▸ exec_answers i _
  | rejected e => exact step_rejected h hd ▸ Answer.raise _ _ _

/-- Everything a step can do. -/
theorem step_cases {s s' : State} (h : step s = .next s') :
    (s.inputs = [] ∧ s' = s) ∨
    (∃ rest, s.inputs = .reset :: rest ∧ s' = resetBlock (acceptInput rest s)) ∨
    ∃ c rest, s.inputs = .command c :: rest ∧
      ((∃ e, decode c = .rejected e ∧ rejectCommand e (acceptInput rest s) = .next s') ∨
        ∃ i, decode c = .instr i ∧ exec i (acceptInput rest s) = .next s') := by
  match hi : s.inputs with
  | [] =>
    rw [step_idle hi] at h
    cases h
    exact .inl ⟨rfl, rfl⟩
  | .reset :: rest =>
    rw [step_reset hi] at h
    cases h
    exact .inr (.inl ⟨_, rfl, rfl⟩)
  | .command c :: rest =>
    refine .inr (.inr ⟨c, rest, rfl, ?_⟩)
    cases hd : decode c with
    | rejected e => exact .inl ⟨e, rfl, (step_rejected hi hd).symm.trans h⟩
    | instr i => exact .inr ⟨i, rfl, (step_instr hi hd).symm.trans h⟩

/-- A run of one step more begins with that step. -/
theorem core_run_succ {s s' : State} (h : step s = .next s') (k : Nat) :
    Sys2Proof.core.run (k + 1) s = Sys2Proof.core.run k s' := by
  have h' : Sys2Proof.core.step s = .next s' := h
  simp only [Host.Core.run, h']

end Sys2Proof.Machine
end

