-- ==== Sys2Proof/Laws/PerInstr.lean ====
section
/-! SUPPORT. Facts about every instruction as syntax, one lemma for each constructor. -/

namespace Sys2Proof.Laws.EncodeLength

/-- The length a decoder finds from the first bytes of an instruction's encoding (R55) is the encoding's own length. -/
def Statement (i : Instr) : Prop :=
  i.wellFormed = true → i.opcode.format.lengthRight (encode i) = true

theorem sidPack (dir dev : U16) : Statement (.sidPack dir dev) := fun _ => rfl

theorem sidUnpack (sid : U16) : Statement (.sidUnpack sid) := fun _ => rfl

theorem sidEncode (sid : U16) : Statement (.sidEncode sid) := fun _ => rfl

theorem sidDecode (buf : Bytes) : Statement (.sidDecode buf) := lengthRight_encodeBuffer

theorem hb2Pack (w s : Byte) : Statement (.hb2Pack w s) := fun _ => rfl

theorem hb2Unpack (hb2 : Byte) : Statement (.hb2Unpack hb2) := fun _ => rfl

theorem hb2Encode (hb2 : Byte) : Statement (.hb2Encode hb2) := fun _ => rfl

theorem hb2Decode (buf : Bytes) : Statement (.hb2Decode buf) := lengthRight_encodeBuffer

theorem hdrBuild (kind : Byte) (sid dir dev : U16) (hb2 w stream fn : Byte) (sys : U32) :
    Statement (.hdrBuild kind sid dir dev hb2 w stream fn sys) := fun _ => rfl

theorem hdrDecode (buf : Bytes) : Statement (.hdrDecode buf) := lengthRight_encodeBuffer

theorem hdrEncode : Statement .hdrEncode := fun _ => rfl

theorem resolveKind : Statement .resolveKind := fun _ => rfl

theorem msgBuild (body : Bytes) : Statement (.msgBuild body) := lengthRight_encodeBuffer

theorem frameEncode : Statement .frameEncode := fun _ => rfl

theorem frameDecode (buf : Bytes) : Statement (.frameDecode buf) := lengthRight_encodeBuffer

end Sys2Proof.Laws.EncodeLength
end

