-- ==== Sys2Proof/Tests/Slice0.lean ====
section
/-! SUPPORT. The model's own tests. Expected results are the vectors of 95_test_vectors.md, the examples of 30_encoding.md R64 and of the command
rules, or read off the tables by hand; each test names its source. After the tests stand the witnesses: for every obligation with hypotheses, a
concrete input that meets them, clause by clause, at the ends of its ranges. -/

namespace Sys2Proof.Tests

open Sys2Proof Sys2Proof.Machine Sys2Proof.Spec

/-! ### Helpers -/

/-- The next state of an outcome. -/
def nextOf : Host.Outcome State Fault Refusal → Option State
  | .next s => some s
  | .fault _ => none
  | .refused _ => none

/-- The reset state of a lenient block with `BODY_MAX = 64`. -/
def lenient : State := State.resetWith { bodyMax := 64, strictLengthCheck := false }

/-- The reset state of a strict block with `BODY_MAX = 64`. -/
def strict : State := State.resetWith { bodyMax := 64, strictLengthCheck := true }

/-- The reset state of a lenient block with `BODY_MAX = 0`. -/
def tiny : State := State.resetWith { bodyMax := 0, strictLengthCheck := false }

/-- `s` with the header `h` written. -/
def headed (s : State) (h : Header) : State := { s with block := { s.block with hdrValid := true, hdr := h } }

/-- `s` with a message written. -/
def messaged (s : State) (len : U32) (h : Header) (body : Bytes) : State :=
  { s with block := { s.block with msgValid := true, msgLen := len, msgHdr := h, msgBody := body } }

/-- `s` with the transaction `c` presented. -/
def offered (s : State) (c : Bytes) : State := { s with inputs := [.command c] }

/-- The response that one step gives to the transaction `c`. -/
def reply (s : State) (c : Bytes) : Option Bytes := (nextOf (step (offered s c))).bind fun s' => s'.responses.getLast?

/-- The block after one step on the transaction `c`. -/
def blockAfter (s : State) (c : Bytes) : Option Block := (nextOf (step (offered s c))).map State.block

/-- The select-request header of V-S1. -/
def selectReq : Header := { sid := 0xFFFF, hb2 := 0, fn := 0, pt := 0, st := 1, sys := 0x11111111 }

/-- The header of R83's example. -/
def dataHdr : Header := { sid := 0x8005, hb2 := 0x81, fn := 0x0D, pt := 0, st := 0, sys := 0xAABBCCDD }

/-- A header no kind gives: P-Type 7, S-Type 0xC8 (section 2.4 of the vectors). -/
def alienHdr : Header := { sid := 0x8001, hb2 := 0x81, fn := 0x0D, pt := 7, st := 0xC8, sys := 0x12345678 }

/-- `n` zero bytes. -/
def zeros (n : Nat) : Bytes := List.replicate n 0

/-! ### Well-formed instructions -/

/-- A byte string of 2^32 bytes or more does not fit the field `n`. -/
theorem fitsLengthField_false {buf : Bytes} (h : 4294967296 ≤ buf.length) : Bytes.fitsLengthField buf = false := by
  simpa [Bytes.fitsLengthField] using h

/-- A byte string of fewer than 2^32 bytes fits the field `n`. -/
theorem fitsLengthField_true {buf : Bytes} (h : buf.length < 4294967296) : Bytes.fitsLengthField buf = true := by
  simpa [Bytes.fitsLengthField] using h

theorem test_wellFormed_refuses_sidDecode : (Instr.sidDecode (List.replicate 4294967296 0)).wellFormed = false :=
  fitsLengthField_false List.length_replicate.ge

theorem test_wellFormed_refuses_hb2Decode : (Instr.hb2Decode (List.replicate 4294967296 0)).wellFormed = false :=
  fitsLengthField_false List.length_replicate.ge

theorem test_wellFormed_refuses_hdrDecode : (Instr.hdrDecode (List.replicate 4294967296 0)).wellFormed = false :=
  fitsLengthField_false List.length_replicate.ge

theorem test_wellFormed_refuses_msgBuild : (Instr.msgBuild (List.replicate 4294967296 0)).wellFormed = false :=
  fitsLengthField_false List.length_replicate.ge

theorem test_wellFormed_refuses_frameDecode : (Instr.frameDecode (List.replicate 4294967296 0)).wellFormed = false :=
  fitsLengthField_false List.length_replicate.ge

theorem test_wellFormed_longest : (Instr.sidDecode (List.replicate 4294967295 0)).wellFormed = true :=
  fitsLengthField_true (List.length_replicate.trans_lt (by decide))

/-! ### Decoding: the bytes of each command, written out from R53 and R56 -/

theorem test_decode_sidPack : decode [0x01, 0x34, 0x12, 0x78, 0x56] = .instr (.sidPack 0x1234 0x5678) := by decide
theorem test_decode_sidUnpack : decode [0x02, 0x01, 0x80] = .instr (.sidUnpack 0x8001) := by decide
theorem test_decode_sidEncode : decode [0x03, 0x34, 0x12] = .instr (.sidEncode 0x1234) := by decide
theorem test_decode_sidDecode :
    decode [0x04, 0x02, 0x00, 0x00, 0x00, 0x34, 0x12] = .instr (.sidDecode [0x34, 0x12]) := by decide
theorem test_decode_hb2Pack : decode [0x05, 0x80, 0x01] = .instr (.hb2Pack 0x80 0x01) := by decide
theorem test_decode_hb2Unpack : decode [0x06, 0x81] = .instr (.hb2Unpack 0x81) := by decide
theorem test_decode_hb2Encode : decode [0x07, 0x81] = .instr (.hb2Encode 0x81) := by decide
theorem test_decode_hb2Decode : decode [0x08, 0x01, 0x00, 0x00, 0x00, 0x81] = .instr (.hb2Decode [0x81]) := by decide

/-- Section 2.3 of the vectors. -/
theorem test_decode_hdrBuild :
    decode [0x10, 0x00, 0x34, 0x12, 0x00, 0x80, 0x05, 0x00, 0x55, 0x80, 0x01, 0x0D, 0xDD, 0xCC, 0xBB, 0xAA] =
      .instr (.hdrBuild 0x00 0x1234 0x8000 0x0005 0x55 0x80 0x01 0x0D 0xAABBCCDD) := by decide

theorem test_decode_hdrDecode :
    decode [0x11, 0x0A, 0x00, 0x00, 0x00, 0xFF, 0xFF, 0x00, 0x00, 0x00, 0x01, 0x11, 0x11, 0x11, 0x11] =
      .instr (.hdrDecode [0xFF, 0xFF, 0x00, 0x00, 0x00, 0x01, 0x11, 0x11, 0x11, 0x11]) := by decide
theorem test_decode_hdrEncode : decode [0x12] = .instr .hdrEncode := by decide
theorem test_decode_resolveKind : decode [0x13] = .instr .resolveKind := by decide
theorem test_decode_msgBuild :
    decode [0x20, 0x02, 0x00, 0x00, 0x00, 0x01, 0x00] = .instr (.msgBuild [0x01, 0x00]) := by decide
theorem test_decode_frameEncode : decode [0x21] = .instr .frameEncode := by decide
theorem test_decode_frameDecode :
    decode [0x22, 0x0E, 0x00, 0x00, 0x00, 0x0A, 0x00, 0x00, 0x00, 0xFF, 0xFF, 0x00, 0x00, 0x00, 0x06, 0x78, 0x56, 0x34, 0x12] =
      .instr (.frameDecode [0x0A, 0x00, 0x00, 0x00, 0xFF, 0xFF, 0x00, 0x00, 0x00, 0x06, 0x78, 0x56, 0x34, 0x12]) := by decide

/-- Section 2.6 of the vectors: illegal first bytes, the empty transaction, and lengths that are wrong. -/
theorem test_decode_rejects :
    ([[0x00], [0x09], [0x14], [0x23], [0x30], [0x55, 0x01, 0x02], [0xFF]] : List Bytes).all
        (fun c => decode c == .rejected .illegalOpcode) = true ∧
      ([[], [0x12, 0x00], [0x21, 0x21], [0x01, 0x00, 0x80], [0x04, 0x02, 0x00], [0x04, 0x02, 0x00, 0x00, 0x00, 0x34],
        [0x04, 0x02, 0x00, 0x00, 0x00, 0x34, 0x12, 0x56], [0x08, 0x00, 0x00, 0x00, 0x01], 0x10 :: zeros 14,
        0x10 :: zeros 16] : List Bytes).all (fun c => decode c == .rejected .malformedCommand) = true := by decide

/-- Every one of the 256 first bytes is an opcode exactly where R56 lists it. -/
theorem test_opcode_map :
    (List.range 256).filter (fun b => (Opcode.ofByte (BitVec.ofNat 8 b)).isSome) =
      [0x01, 0x02, 0x03, 0x04, 0x05, 0x06, 0x07, 0x08, 0x10, 0x11, 0x12, 0x13, 0x20, 0x21, 0x22] := by decide

/-- The table's 8-bit words, with operand bytes of zero. -/
theorem test_decodeTableWord :
    decodeTableWord 8 0x01 = some (.sidPack 0 0) ∧ decodeTableWord 8 0x04 = some (.sidDecode []) ∧
      decodeTableWord 8 0x10 = some (.hdrBuild 0 0 0 0 0 0 0 0 0) ∧ decodeTableWord 8 0x21 = some .frameEncode ∧
      decodeTableWord 24 0x123403 = some (.sidEncode 0x1234) ∧ decodeTableWord 8 0x00 = none := by decide

/-- The step after `withFetchWord` runs the word, from reset with an unknown `BODY_MAX`. -/
theorem test_withFetchWord :
    ((nextOf (step (State.reset.withFetchWord 8 0x08))).bind fun s => s.responses.getLast?) = some [0x04] ∧
      ((nextOf (step (State.reset.withFetchWord 8 0x22))).bind fun s => s.responses.getLast?) = some [0x01] ∧
      ((nextOf (step (State.reset.withFetchWord 8 0x20))).bind fun s => s.responses.getLast?) = some [0x82] := by
  refine ⟨?_, ?_, ?_⟩ <;> rfl

/-! ### One step of each command: sections 2.1 to 2.6 of the vectors -/

theorem test_sidPack :
    reply lenient [0x01, 0x00, 0x80, 0x01, 0x00] = some [0x00, 0x01, 0x80] ∧
      reply lenient [0x01, 0x01, 0x00, 0x01, 0x00] = some [0x00, 0x01, 0x00] ∧
      reply lenient [0x01, 0xFF, 0x7F, 0xFF, 0x7F] = some [0x00, 0xFF, 0x7F] ∧
      reply lenient [0x01, 0x00, 0x00, 0x00, 0x80] = some [0x00, 0x00, 0x00] := by decide

theorem test_sidUnpack :
    reply lenient [0x02, 0x01, 0x80] = some [0x00, 0x00, 0x80, 0x01, 0x00] ∧
      reply lenient [0x02, 0xFF, 0x7F] = some [0x00, 0x00, 0x00, 0xFF, 0x7F] := by decide

theorem test_sidEncode : reply lenient [0x03, 0x34, 0x12] = some [0x00, 0x34, 0x12] := by decide

theorem test_sidDecode :
    reply lenient [0x04, 0x01, 0x00, 0x00, 0x00, 0x34] = some [0x04] ∧
      reply lenient [0x04, 0x03, 0x00, 0x00, 0x00, 0x34, 0x12, 0x99] = some [0x00, 0x34, 0x12] := by decide

theorem test_sidDecode_capacity : reply lenient ([0x04, 0x4F, 0x00, 0x00, 0x00] ++ zeros 79) = some [0x83] := by decide

theorem test_hb2Pack :
    reply lenient [0x05, 0x80, 0x01] = some [0x00, 0x81] ∧ reply lenient [0x05, 0x01, 0x01] = some [0x00, 0x01] ∧
      reply lenient [0x05, 0x7F, 0x00] = some [0x00, 0x00] ∧ reply lenient [0x05, 0x00, 0x80] = some [0x00, 0x00] := by decide

theorem test_hb2Unpack :
    reply lenient [0x06, 0x81] = some [0x00, 0x80, 0x01] ∧ reply lenient [0x06, 0x7F] = some [0x00, 0x00, 0x7F] := by decide

theorem test_hb2Encode : reply lenient [0x07, 0x81] = some [0x00, 0x81] := by decide

theorem test_hb2Decode :
    reply lenient [0x08, 0x00, 0x00, 0x00, 0x00] = some [0x04] ∧
      reply lenient [0x08, 0x02, 0x00, 0x00, 0x00, 0x81, 0x22] = some [0x00, 0x81] := by decide

/-- Section 2.3: every row of the dispatch table, all operands nonzero. -/
theorem test_hdrBuild_rows :
    ([(0x00, { sid := 0x8005, hb2 := 0x81, fn := 0x0D, pt := 0, st := 0, sys := 0xAABBCCDD }),
      (0x01, { sid := 0xFFFF, hb2 := 0, fn := 0, pt := 0, st := 1, sys := 0xAABBCCDD }),
      (0x02, { sid := 0x1234, hb2 := 0, fn := 0x0D, pt := 0, st := 2, sys := 0xAABBCCDD }),
      (0x03, { sid := 0xFFFF, hb2 := 0, fn := 0, pt := 0, st := 3, sys := 0xAABBCCDD }),
      (0x04, { sid := 0x1234, hb2 := 0, fn := 0x0D, pt := 0, st := 4, sys := 0xAABBCCDD }),
      (0x05, { sid := 0xFFFF, hb2 := 0, fn := 0, pt := 0, st := 5, sys := 0xAABBCCDD }),
      (0x06, { sid := 0xFFFF, hb2 := 0, fn := 0, pt := 0, st := 6, sys := 0xAABBCCDD }),
      (0x07, { sid := 0x1234, hb2 := 0x55, fn := 0x0D, pt := 0, st := 7, sys := 0xAABBCCDD }),
      (0x09, { sid := 0xFFFF, hb2 := 0, fn := 0, pt := 0, st := 9, sys := 0xAABBCCDD })] : List (Byte × Header)).all
      (fun r => blockAfter lenient
          [0x10, r.1, 0x34, 0x12, 0x00, 0x80, 0x05, 0x00, 0x55, 0x80, 0x01, 0x0D, 0xDD, 0xCC, 0xBB, 0xAA] ==
        some (headed lenient r.2).block) = true := by decide

/-- Section 2.3, the refused kinds: answered with the kind, and nothing written. -/
theorem test_hdrBuild_refused :
    ([0x08, 0x0A, 0x0B, 0x80, 0xFF] : List Byte).all (fun k =>
      reply lenient (0x10 :: k :: zeros 14) == some [0x03, k] &&
        blockAfter lenient (0x10 :: k :: zeros 14) == some lenient.block) = true := by decide

/-- Section 2.4: the 11th byte is not read, P-Type and S-Type are kept raw. -/
theorem test_hdrDecode :
    blockAfter lenient [0x11, 0x0B, 0x00, 0x00, 0x00, 0x01, 0x80, 0x81, 0x0D, 0x07, 0xC8, 0x78, 0x56, 0x34, 0x12, 0xEE] =
      some (headed lenient alienHdr).block := by decide

theorem test_hdrDecode_short : reply lenient ([0x11, 0x09, 0x00, 0x00, 0x00] ++ zeros 9) = some [0x04] := by decide

/-- R83's example, and the unwritten register. -/
theorem test_hdrEncode :
    reply (headed lenient dataHdr) [0x12] = some [0x00, 0x05, 0x80, 0x81, 0x0D, 0x00, 0x00, 0xDD, 0xCC, 0xBB, 0xAA] ∧
      reply lenient [0x12] = some [0x82] := by decide

/-- V-S2 and section 2.4. -/
theorem test_resolveKind :
    reply (headed lenient { selectReq with st := 8 }) [0x13] = some [0x03, 0x08] ∧
      reply (headed lenient { selectReq with st := 6 }) [0x13] = some [0x00, 0x06] ∧
      reply (headed lenient alienHdr) [0x13] = some [0x03, 0xC8] ∧ reply lenient [0x13] = some [0x82] := by decide

/-- P1: the message of an empty body. -/
theorem test_msgBuild :
    blockAfter (headed lenient selectReq) [0x20, 0x00, 0x00, 0x00, 0x00] =
      some (messaged (headed lenient selectReq) 10 selectReq []).block := by decide

/-- Section 2.6: capacity 64 and capacity 0. -/
theorem test_msgBuild_capacity :
    reply (headed lenient selectReq) ([0x20, 0x40, 0x00, 0x00, 0x00] ++ zeros 64) = some [0x00] ∧
      reply (headed lenient selectReq) ([0x20, 0x41, 0x00, 0x00, 0x00] ++ zeros 65) = some [0x83] ∧
      reply (headed tiny selectReq) [0x20, 0x00, 0x00, 0x00, 0x00] = some [0x00] ∧
      reply (headed tiny selectReq) [0x20, 0x01, 0x00, 0x00, 0x00, 0xAA] = some [0x83] := by decide

/-- V-S1, and the length re-emitted as stored (P5). -/
theorem test_frameEncode :
    reply (messaged lenient 10 selectReq []) [0x21] =
        some [0x00, 0x0A, 0x00, 0x00, 0x00, 0xFF, 0xFF, 0x00, 0x00, 0x00, 0x01, 0x11, 0x11, 0x11, 0x11] ∧
      reply (messaged lenient 5 { sid := 1, hb2 := 0x81, fn := 1, pt := 0, st := 0, sys := 1 } [0xAA, 0xBB]) [0x21] =
        some [0x00, 0x05, 0x00, 0x00, 0x00, 0x01, 0x00, 0x81, 0x01, 0x00, 0x00, 0x01, 0x00, 0x00, 0x00, 0xAA, 0xBB] := by
  decide

/-- Section 2.5: a declared length of 255 with an empty body is stored, with the header in both registers. -/
theorem test_frameDecode :
    blockAfter lenient [0x22, 0x0E, 0x00, 0x00, 0x00, 0xFF, 0x00, 0x00, 0x00, 0x01, 0x00, 0x02, 0x03, 0x00, 0x00, 0x04, 0x03, 0x02, 0x01] =
      some (messaged (headed lenient { sid := 1, hb2 := 2, fn := 3, pt := 0, st := 0, sys := 0x01020304 }) 255
        { sid := 1, hb2 := 2, fn := 3, pt := 0, st := 0, sys := 0x01020304 } []).block := by decide

/-- Section 2.5, strict mode; section 2.6, capacity. -/
theorem test_frameDecode_checks :
    reply strict ([0x22, 0x0E, 0x00, 0x00, 0x00, 0x00, 0x00, 0x00, 0x00] ++ zeros 10) = some [0x05] ∧
      reply strict ([0x22, 0x0F, 0x00, 0x00, 0x00, 0x0B, 0x00, 0x00, 0x00] ++ zeros 10 ++ [0xAA]) = some [0x00] ∧
      reply strict ([0x22, 0x0D, 0x00, 0x00, 0x00] ++ zeros 13) = some [0x01] ∧
      reply lenient ([0x22, 0x4E, 0x00, 0x00, 0x00] ++ zeros 78) = some [0x00] ∧
      reply lenient ([0x22, 0x4F, 0x00, 0x00, 0x00] ++ zeros 79) = some [0x83] := by decide

/-- R111: a reset clears the valid bits and answers nothing. -/
theorem test_reset_input :
    (nextOf (step { headed lenient selectReq with inputs := [.reset] })) = some lenient := by decide

/-! ### The assembler -/

/-- P1 and P5, with a comment and a mnemonic kind (R62, R63, R64). -/
theorem test_assemble :
    assemble "SELECT_REQ 0x11111111 ; P1\nMSG_BUILD []\nFRAME_ENCODE".toList =
        some [[0x10, 0x01, 0x00, 0x00, 0x00, 0x00, 0x00, 0x00, 0x00, 0x00, 0x00, 0x00, 0x11, 0x11, 0x11, 0x11],
          [0x20, 0x00, 0x00, 0x00, 0x00], [0x21]] ∧
      assemble "HDR_BUILD SELECT_REQ, 0, 0, 0, 0, 0, 0, 0, 0x11111111".toList =
        some [[0x10, 0x01, 0x00, 0x00, 0x00, 0x00, 0x00, 0x00, 0x00, 0x00, 0x00, 0x00, 0x11, 0x11, 0x11, 0x11]] ∧
      assemble "REJECT_REQ 0x0001, 0, 4, 1".toList =
        some [[0x10, 0x07, 0x01, 0x00, 0x00, 0x00, 0x00, 0x00, 0x00, 0x00, 0x00, 0x04, 0x01, 0x00, 0x00, 0x00]] ∧
      assemble "SEND [01 00]".toList = some [[0x20, 0x02, 0x00, 0x00, 0x00, 0x01, 0x00], [0x21]] := by
  refine ⟨?_, ?_, ?_, ?_⟩ <;> decide

/-- An operand that does not fit is refused, never truncated (R62). -/
theorem test_assemble_refuses :
    assemble "HB2_PACK 256, 1".toList = none ∧ assemble "SID_ENCODE 0x10000".toList = none ∧
      assemble "FRAME_ENCODE 1".toList = none ∧ assemble "NOP".toList = none := by
  refine ⟨?_, ?_, ?_, ?_⟩ <;> decide

/-! ### Witnesses: for each obligation with hypotheses, concrete inputs that meet them, one for each clause -/

/-- A block with a select-request staged and a message of 64 bytes, the capacity. -/
def full : State := messaged (headed lenient selectReq) 74 selectReq (zeros 64)

/-- A 14-byte frame of declared length 10 (P3's first transaction). -/
def frame14 : Bytes := [0x0A, 0x00, 0x00, 0x00, 0xFF, 0xFF, 0x00, 0x00, 0x00, 0x06, 0x78, 0x56, 0x34, 0x12]

/-- Two blocks that differ in the contents of both registers, each behind a valid bit of 0. -/
def hiddenHdr : State :=
  { lenient with block := { lenient.block with hdr := alienHdr, msgLen := 7, msgHdr := dataHdr, msgBody := [0xAA] } }

theorem witness_LittleEndianHelpers :
    0 + 2 ≤ ([0x34, 0x12] : Bytes).length ∧ le16 [0x34, 0x12] 0 = 0x1234 ∧
      1 + 4 ≤ ([0x00, 0x78, 0x56, 0x34, 0x12] : Bytes).length ∧ le32 [0x00, 0x78, 0x56, 0x34, 0x12] 1 = 0x12345678 := by decide

theorem witness_HeaderLayout :
    0 < 10 ∧ (frameBytes 10 dataHdr [])[0 + 4]? = some 0x05 ∧ 9 < 10 ∧ (frameBytes 10 dataHdr [])[9 + 4]? = some 0xAA := by
  decide

theorem witness_FrameBitsStandWhereTheWireTableSays :
    3 < 4 ∧ (frameBytes 0x12345678 dataHdr [0xEE])[3]? = some 0x12 ∧ (frameBytes 10 dataHdr [0xEE])[10 + 3]? = some 0xAA ∧
      (frameBytes 10 dataHdr [0xEE])[4]? = some 0x05 ∧ (frameBytes 10 dataHdr [0xEE])[5]? = some 0x80 ∧ 6 < 7 ∧ 7 < 8 := by decide

theorem witness_BodyBytesUnchanged :
    answers (.msgBuild (zeros 64)) (headed lenient selectReq) 0x00 []
        (answered (messageStored (headed lenient selectReq) 74 selectReq (zeros 64)) [0x00]) ∧
      answers (.msgBuild []) (headed tiny selectReq) 0x00 []
        (answered (messageStored (headed tiny selectReq) 10 selectReq []) [0x00]) ∧
      answers (.frameDecode (frame14 ++ zeros 64)) lenient 0x00 []
        (answered (headerStored (messageStored lenient 10 { selectReq with st := 6, sys := 0x12345678 } (zeros 64))
          { selectReq with st := 6, sys := 0x12345678 }) [0x00]) :=
  ⟨⟨rfl, rfl⟩, ⟨rfl, rfl⟩, ⟨rfl, rfl⟩⟩

theorem witness_SidDecodeFirstTwoBytes :
    (zeros 2).length < 2 ^ 32 ∧ (zeros 0).length < 2 ∧ (zeros 1).length < 2 ∧
      (0x34 :: 0x12 :: zeros 12 : Bytes).length ≤ 14 + tiny.params.bodyMax.val := by decide

theorem witness_HbTwoDecodeFirstByte :
    (zeros 1).length < 2 ^ 32 ∧ (0x81 :: zeros 13 : Bytes).length ≤ 14 + tiny.params.bodyMax.val := by decide

theorem witness_CodecLaws :
    (bytes16 0x8001 ++ zeros 12).length ≤ 14 + tiny.params.bodyMax.val ∧
      ([0x81] ++ zeros 13 : Bytes).length ≤ 14 + tiny.params.bodyMax.val := by decide

theorem witness_LeafCodecsTouchNoRegister :
    isLeafCodec (.sidDecode [0x34, 0x12]) = true ∧ isLeafCodec (.hb2Pack 0x80 1) = true ∧ lenient.params = full.params ∧
      lenient ≠ full := by decide

theorem witness_HdrBuildFollowsTheDispatchTable :
    (0 : Byte) = 0 ∧ (9 : Byte) ∈ ([1, 3, 5, 6, 9] : List Byte) ∧ (4 : Byte) ∈ ([2, 4] : List Byte) ∧ (7 : Byte) = 7 ∧
      (8 : Byte) ∉ kinds ∧ (10 : Byte) ∉ kinds ∧ (0xFF : Byte) ∉ kinds := by decide

theorem witness_HdrBuildIgnoresUnusedOperands :
    (1 : Byte) ∈ ([1, 3, 5, 6, 9] : List Byte) ∧ (2 : Byte) ∈ ([2, 4] : List Byte) := by decide

theorem witness_HdrDecodeStoresTenBytesUnchecked :
    (zeros 10).length < 2 ^ 32 ∧ (zeros 9).length < 10 ∧ (zeros 0).length < 10 ∧
      (headerBytes alienHdr ++ zeros 4).length ≤ 14 + tiny.params.bodyMax.val := by decide

theorem witness_HdrEncodeAnswersTenBytes :
    lenient.block.hdrValid = false ∧ (headed lenient dataHdr).block.hdrValid = true := by decide

theorem witness_ResolveKindAnswersTheSType :
    lenient.block.hdrValid = false ∧
      (headed lenient { selectReq with st := 9 }).block.hdrValid = true ∧ (9 : Byte) ∈ kinds ∧
      (headed lenient { selectReq with st := 8 }).block.hdrValid = true ∧
      (headed lenient { selectReq with st := 8 }).block.hdr.st ∉ kinds := by decide

theorem witness_HeaderRoundTrip : 10 ≤ (zeros 10).length := by decide

theorem witness_BuildAndResolutionAgree : (0 : Byte) ∈ kinds ∧ (9 : Byte) ∈ kinds := by decide

theorem witness_AnyHeaderIsRelayed :
    10 ≤ (headerBytes alienHdr).length ∧ (headerBytes alienHdr ++ zeros 4).length ≤ 14 + tiny.params.bodyMax.val ∧
      (zeros 0).length ≤ tiny.params.bodyMax.val ∧ (zeros 64).length ≤ lenient.params.bodyMax.val := by decide

theorem witness_BuiltHeaderFormIsKept :
    answers (.hdrBuild 1 0 0 0 0 0 0 0 0x11111111) lenient 0x00 [] (answered (headerStored lenient selectReq) [0x00]) ∧
      (headed lenient selectReq).block.hdr.Built ∧
      exec .resolveKind (headed lenient selectReq) = .next (answered (headed lenient selectReq) [0x00, 0x01]) :=
  ⟨⟨rfl, rfl⟩, by unfold Header.Built; decide, rfl⟩

theorem witness_MsgBuildStoresTheMessage :
    (zeros 64).length < 2 ^ 32 ∧ (zeros 64).length ≤ lenient.params.bodyMax.val ∧ lenient.block.hdrValid = false ∧
      lenient.params.bodyMax.val < (zeros 65).length ∧ (headed lenient selectReq).block.hdrValid = true ∧
      (zeros 64).length ≤ (headed lenient selectReq).params.bodyMax.val := by decide

theorem witness_FrameEncodeEmitsTheStoredMessage : lenient.block.msgValid = false ∧ full.block.msgValid = true := by decide

theorem witness_FrameDecodeStoresMessageAndHeader :
    frame14.length < 2 ^ 32 ∧ (zeros 13).length < 14 ∧ 14 + lenient.params.bodyMax.val < (zeros 79).length ∧
      ((zeros 1).length ≤ strict.params.bodyMax.val ∧ strict.params.strictLengthCheck = true ∧
        (10 : U32).toNat ≠ 10 + (zeros 1).length) ∧
      ((zeros 64).length ≤ strict.params.bodyMax.val ∧ strict.params.strictLengthCheck = true ∧
        (74 : U32).toNat = 10 + (zeros 64).length) ∧
      ((zeros 64).length ≤ lenient.params.bodyMax.val ∧ lenient.params.strictLengthCheck = false) := by decide

theorem witness_FrameOfFourteenBytesIsTheLeast :
    (zeros 13).length ≤ 13 ∧ (zeros 14).length = 14 ∧ lenient.params.strictLengthCheck = false ∧
      frame14.length = 14 ∧ strict.params.strictLengthCheck = true ∧ littleEndian (frame14.take 4) = 10 := by decide

theorem witness_LengthFieldOfBuiltAndDecodedFrames :
    answers (.msgBuild (zeros 64)) (headed lenient selectReq) 0x00 []
        (answered (messageStored (headed lenient selectReq) 74 selectReq (zeros 64)) [0x00]) ∧
      answers (.frameDecode frame14) strict 0x00 []
        (answered (headerStored (messageStored strict 10 { selectReq with st := 6, sys := 0x12345678 } [])
          { selectReq with st := 6, sys := 0x12345678 }) [0x00]) ∧ strict.params.strictLengthCheck = true :=
  ⟨⟨rfl, rfl⟩, ⟨rfl, rfl⟩, rfl⟩

theorem witness_MessageRoundTrip :
    full.CapacityInv ∧ full.LengthInv ∧ full.params = lenient.params ∧
      answers .frameEncode full 0x00 (frameBytes 74 selectReq (zeros 64))
        (answered full (0x00 :: frameBytes 74 selectReq (zeros 64))) :=
  ⟨by unfold State.CapacityInv; decide, fun _ => by decide, rfl, rfl, rfl⟩

theorem witness_LenientFrameRoundTrip :
    lenient.params.strictLengthCheck = false ∧ 14 ≤ (zeros 14).length ∧ (zeros 14).length ≤ 14 + lenient.params.bodyMax.val ∧
      14 ≤ (zeros 78).length ∧ (zeros 78).length ≤ 14 + lenient.params.bodyMax.val := by decide

/-- Program P2. -/
theorem witness_HeaderSnapshot :
    answers (.msgBuild [0x01, 0x00]) (headed lenient dataHdr) 0x00 []
        (answered (messageStored (headed lenient dataHdr) 12 dataHdr [0x01, 0x00]) [0x00]) ∧
      exec (.hdrBuild 1 0 0 0 0 0 0 0 0x11111111)
          (answered (messageStored (headed lenient dataHdr) 12 dataHdr [0x01, 0x00]) [0x00]) =
        .next (answered (headerStored (answered (messageStored (headed lenient dataHdr) 12 dataHdr [0x01, 0x00]) [0x00])
          selectReq) [0x00]) ∧
      exec (.hdrDecode (hdrBytes alienHdr))
          (answered (messageStored (headed lenient dataHdr) 12 dataHdr [0x01, 0x00]) [0x00]) =
        .next (answered (headerStored (answered (messageStored (headed lenient dataHdr) 12 dataHdr [0x01, 0x00]) [0x00])
          alienHdr) [0x00]) :=
  ⟨⟨rfl, rfl⟩, rfl, rfl⟩

theorem witness_FrameDecodeReplacesBothRegisters :
    lenient.params = full.params ∧ lenient ≠ full ∧
      answers (.frameDecode frame14) lenient 0x00 []
        (answered (headerStored (messageStored lenient 10 { selectReq with st := 6, sys := 0x12345678 } [])
          { selectReq with st := 6, sys := 0x12345678 }) [0x00]) :=
  ⟨rfl, by decide, rfl, rfl⟩

theorem witness_HdrIsWrittenAndReadByThreeCommandsEach :
    (headed lenient selectReq).block.hdrValid = true ∧
      (nextOf (step { headed lenient selectReq with inputs := [.reset] })).map (fun s => s.block.hdrValid) = some false ∧
      mayWriteHdr .hdrEncode = false ∧ mayWriteHdr (.hdrDecode (zeros 10)) = true ∧
      reply lenient ([0x11, 0x0A, 0x00, 0x00, 0x00] ++ zeros 10) = some [0x00] ∧
      readsHdr (.msgBuild (zeros 64)) = true ∧ (zeros 64).length ≤ lenient.params.bodyMax.val ∧
      readsHdr .frameEncode = false := by decide

theorem witness_MessageIsWrittenByTwoCommandsAndReadByOne :
    full.block.msgValid = true ∧
      (nextOf (step { full with inputs := [.reset] })).map (fun s => s.block.msgValid) = some false ∧
      mayWriteMsg .frameEncode = false ∧ mayWriteMsg (.frameDecode frame14) = true ∧
      reply lenient ([0x22, 0x0E, 0x00, 0x00, 0x00] ++ frame14) = some [0x00] ∧ Instr.hdrEncode ≠ .frameEncode := by decide

theorem witness_FrameOfEveryCommand :
    exec (.sidUnpack 0x8001) lenient = .next (answered lenient [0x00, 0x00, 0x80, 0x01, 0x00]) ∧
      exec .frameEncode lenient = .next (answered lenient [0x82]) ∧
      exec (.hdrDecode (hdrBytes alienHdr)) full = .next (answered (headerStored full alienHdr) [0x00]) ∧
      exec (.msgBuild []) (headed lenient selectReq) =
        .next (answered (messageStored (headed lenient selectReq) 10 selectReq []) [0x00]) :=
  ⟨rfl, rfl, rfl, rfl⟩

/-- The invariant at its bound, and a step that ends at the bound. -/
theorem witness_StepKeepsBodyWithinCapacity :
    full.CapacityInv ∧ full.block.msgBody.length = full.params.bodyMax.val ∧
      step (offered full [0x21]) = .next (answered full (0x00 :: frameBytes 74 selectReq (zeros 64))) :=
  ⟨by unfold State.CapacityInv; decide, by decide, rfl⟩

theorem witness_LengthRelationIsKept :
    strict.params.strictLengthCheck = true ∧ strict.LengthInv ∧
      step (offered strict ([0x22, 0x0E, 0x00, 0x00, 0x00] ++ frame14)) =
        .next (answered (headerStored (messageStored strict 10 { selectReq with st := 6, sys := 0x12345678 } [])
          { selectReq with st := 6, sys := 0x12345678 }) [0x00]) ∧
      full.LengthInv ∧ Instr.frameEncode ≠ .frameDecode frame14 ∧
      answers (.frameDecode (zeros 14)) lenient 0x00 []
        (answered (headerStored (messageStored lenient 0 Header.zero []) Header.zero) [0x00]) :=
  ⟨rfl, (fun h => by cases h), rfl, (fun _ => by decide), by decide, rfl, rfl⟩

theorem witness_InvalidContentsAreUnobservable :
    (offered lenient [0x12]).SameVisible (offered hiddenHdr [0x12]) ∧ offered lenient [0x12] ≠ offered hiddenHdr [0x12] ∧
      step (offered lenient [0x12]) = .next (answered lenient [0x82]) :=
  ⟨⟨rfl, rfl, rfl, rfl, (fun h => by cases h), rfl, (fun h => by cases h)⟩, by decide, rfl⟩

theorem witness_StatusTable :
    (offered lenient [0x00]).inputs = .command [0x00] :: [] ∧ decode [0x00] = .rejected .illegalOpcode ∧
      (offered lenient []).inputs = .command [] :: [] ∧ decode [] = .rejected .malformedCommand := by decide

theorem witness_StatusesOfEachCommand :
    withinItsCapacity lenient.params (.msgBuild (zeros 64)) ∧ withinItsCapacity lenient.params (.frameDecode (zeros 78)) ∧
      withinItsCapacity tiny.params (.sidDecode (zeros 14)) ∧ withinItsCapacity tiny.params .hdrEncode := by
  unfold withinItsCapacity
  decide

theorem witness_CapacityExceeded :
    lenient.params.bodyMax.val < (zeros 65).length ∧ 14 + lenient.params.bodyMax.val < (zeros 79).length ∧
      tiny.params.bodyMax.val < (zeros 1).length := by decide

theorem witness_IllegalOpcodesAreAnswered :
    (offered lenient [0x00]).inputs = .command (0x00 :: []) :: [] ∧
      (0x09 ≤ (0x09 : Byte).toNat ∧ (0x09 : Byte).toNat ≤ 0x0F) ∧ (0x0F : Byte).toNat ≤ 0x0F ∧
      (0x14 ≤ (0x14 : Byte).toNat ∧ (0x1F : Byte).toNat ≤ 0x1F) ∧ 0x23 ≤ (0x23 : Byte).toNat ∧ 0x23 ≤ (0xFF : Byte).toNat := by
  decide

theorem witness_WrongLengthsAreAnswered :
    (offered lenient []).inputs = .command [] :: [] ∧
      ((0x12 : Byte) ∈ fixedFormats.map Prod.fst ∧ ¬lengthMatches 0x12 [0x12, 0x00]) ∧
      ((0x04 : Byte) ∈ formatV ∧ ¬lengthMatches 0x04 [0x04, 0x02, 0x00]) ∧
      ¬lengthMatches 0x04 [0x04, 0x02, 0x00, 0x00, 0x00, 0x34] := by decide

theorem witness_StatusIsTheFirstOfThePriorityList :
    (offered lenient [0x13]).inputs = .command [0x13] :: [] ∧ statusByPriority lenient.params lenient.block [0x13] = 0x82 ∧
      statusByPriority lenient.params lenient.block [0x55, 0x01, 0x02] = 0x80 ∧
      statusByPriority tiny.params lenient.block [0x20, 0x01, 0x00, 0x00, 0x00, 0xAA] = 0x83 := by decide

theorem witness_ErrorsWriteNoState :
    (offered full [0x10]).inputs = .command [0x10] :: [] ∧
      step (offered full [0x10]) = .next (answered full [0x81]) ∧ (0x81 : Byte) ≠ 0x00 :=
  ⟨rfl, rfl, by decide⟩

theorem witness_CommandsAreIdempotent :
    ({ full with inputs := [.command [0x20, 0x00, 0x00, 0x00, 0x00], .command [0x20, 0x00, 0x00, 0x00, 0x00]] } : State).inputs =
        .command [0x20, 0x00, 0x00, 0x00, 0x00] :: .command [0x20, 0x00, 0x00, 0x00, 0x00] :: [] ∧
      exec .frameEncode full = .next (answered full (0x00 :: frameBytes 74 selectReq (zeros 64))) :=
  ⟨rfl, rfl⟩

theorem witness_NotInitialisedExactlyBeforeTheFirstWrite :
    withinItsCapacity lenient.params (.msgBuild (zeros 64)) ∧ readsHdr (.msgBuild (zeros 64)) = true ∧
      lenient.block.hdrValid = false ∧ lenient.block.msgValid = false := by
  unfold withinItsCapacity
  decide

theorem witness_StepRunsTheDecodedInstruction :
    (offered full [0x21]).inputs = .command [0x21] :: [] ∧ decode [0x21] = .instr .frameEncode ∧ lenient.inputs = [] ∧
      decodeTableWord 8 0x21 = some .frameEncode := by decide

theorem witness_ResetInputClearsOnlyTheBlock :
    ({ full with inputs := [.reset] } : State).inputs = .reset :: [] ∧
      step { full with inputs := [.reset] } = .next lenient ∧
      ({ full with inputs := [.command [0x21], .reset] } : State).inputs = .command [0x21] :: .reset :: [] :=
  ⟨rfl, rfl, rfl⟩

theorem witness_LaterInputsChangeNothingEarlier :
    Sys2Proof.core.run (offered full [0x21]).inputs.length (offered full [0x21]) =
      .next (answered full (0x00 :: frameBytes 74 selectReq (zeros 64))) := rfl

theorem witness_LeafCommandMayFallAnywhere :
    decode [0x02, 0xFF, 0xFF] = .instr (.sidUnpack 0xFFFF) ∧ isLeafCodec (.sidUnpack 0xFFFF) = true := by decide

theorem witness_DecodeOfEncodeIsTheInstruction :
    (Instr.hdrBuild 0xFF 0xFFFF 0xFFFF 0xFFFF 0xFF 0xFF 0xFF 0xFF 0xFFFFFFFF).wellFormed = true ∧
      (Instr.msgBuild (zeros 3)).wellFormed = true := by decide

theorem witness_EncodeOfDecodeIsTheTransaction :
    decode [0x08, 0x02, 0x00, 0x00, 0x00, 0x81, 0x22] = .instr (.hb2Decode [0x81, 0x22]) := by decide

theorem witness_PseudoInstructionExpansions :
    (6 : Byte) ∈ ([1, 3, 5, 6, 9] : List Byte) ∧ (4 : Byte) ∈ ([2, 4] : List Byte) := by decide

theorem witness_AssemblerNeverTruncates :
    (Instr.hb2Pack 0xFF 0x7F).wellFormed = true ∧
      assembleCommand .hb2Pack [.number 255, .number 127] = some (.hb2Pack 0xFF 0x7F) ∧
      AsmOperand.kind .selectReq ∉ [AsmOperand.number 255, AsmOperand.number 127] := by decide

end Sys2Proof.Tests
end

section
/-! The little-endian helpers (00_scope.md R10) in the words of the obligations: the byte of place `k` is `octet v k`. -/

namespace Sys2Proof.Spec

open Sys2Proof

/-- A slice of eight bits taken at a multiple of eight is the digit of that place in base 256. -/
theorem extractLsb'_eq_octet {w : Nat} (v : BitVec w) (k : Nat) : v.extractLsb' (8 * k) 8 = octet v.toNat k := by
  apply BitVec.eq_of_toNat_eq
  rw [octet, BitVec.extractLsb'_toNat, BitVec.toNat_ofNat, Nat.shiftRight_eq_div_pow, Nat.pow_mul]

/-- R10, the 16-bit form: the block's field and the one of the obligations are the same bytes. -/
theorem bytes16_eq_field16 (v : U16) : bytes16 v = field16 v := by
  rw [field16, ← extractLsb'_eq_octet v 0, ← extractLsb'_eq_octet v 1, bytes16]

/-- R10, the 32-bit form: the block's field and the one of the obligations are the same bytes. -/
theorem bytes32_eq_field32 (v : U32) : bytes32 v = field32 v := by
  rw [field32, ← extractLsb'_eq_octet v 0, ← extractLsb'_eq_octet v 1, ← extractLsb'_eq_octet v 2,
    ← extractLsb'_eq_octet v 3, bytes32]

/-- Settles O1: the bytes of a value are its digits in base 256, and where the bytes exist `byteAt` reads them. -/
theorem littleEndianHelpers : Obligations.LittleEndianHelpers := by
  refine ⟨bytes16_eq_field16, bytes32_eq_field32, fun b off h => ?le16, fun b off h => ?le32⟩
  case le16 =>
    rw [toNat_le16, byteAt_eq_getElem b off (by omega), byteAt_eq_getElem b (off + 1) (by omega)]
  case le32 =>
    rw [toNat_le32, byteAt_eq_getElem b off (by omega), byteAt_eq_getElem b (off + 1) (by omega),
      byteAt_eq_getElem b (off + 2) (by omega), byteAt_eq_getElem b (off + 3) (by omega)]

end Sys2Proof.Spec
end

section
/-! What a command can do to the block, said once: the rules of the 15 commands as the changes they make
(10_state.md R15, R16; 60_exceptions.md R98). -/

namespace Sys2Proof.Machine

open Sys2Proof.Spec

/-- `Effect p b i b' r`: in a block `b` of parameters `p`, command `i` may leave the block as `b'` and answer `r`. -/
inductive Effect (p : Params) (b : Block) : Instr → Block → Bytes → Prop where
  /-- A refused command writes no state (R98). -/
  | refused (i : Instr) (st : Status) (info : Bytes) (hst : st ≠ .ok) : Effect p b i b (st.code :: info)
  /-- The commands that write neither register. -/
  | readOnly (i : Instr) (payload : Bytes) (hh : mayWriteHdr i = false) (hm : mayWriteMsg i = false) :
    Effect p b i b (0x00 :: payload)
  /-- `HDR_BUILD` of a kind of the enumeration (R79). -/
  | hdrBuild (kind : Byte) (sid dir dev : U16) (hb2 w stream fn : Byte) (sys : U32) (k : MessageKind)
    (hk : MessageKind.ofSType kind = some k) :
    Effect p b (.hdrBuild kind sid dir dev hb2 w stream fn sys)
      { b with hdr := hdrBuild k sid dir dev hb2 w stream fn sys, hdrValid := true } [0x00]
  /-- `HDR_DECODE` of ten bytes or more (R82). -/
  | hdrDecode (buf : Bytes) (hle : buf.length ≤ inputMax p) (hge : 10 ≤ buf.length) :
    Effect p b (.hdrDecode buf) { b with hdr := hdrDecode buf, hdrValid := true } [0x00]
  /-- `MSG_BUILD` with a header staged (R89). -/
  | msgBuild (body : Bytes) (hle : body.length ≤ p.bodyMax.val) (hv : b.hdrValid = true) :
    Effect p b (.msgBuild body)
      { b with msgLen := BitVec.ofNat 32 (10 + body.length), msgHdr := b.hdr, msgBody := body, msgValid := true } [0x00]
  /-- `FRAME_DECODE` of fourteen bytes or more whose length is accepted (R93). -/
  | frameDecode (buf : Bytes) (hle : buf.length ≤ inputMax p) (hge : 14 ≤ buf.length)
    (hlen : lengthRefused p (le32 buf 0) (buf.drop 14) = false) :
    Effect p b (.frameDecode buf)
      { hdr := hdrDecode ((buf.drop 4).take 10), hdrValid := true, msgLen := le32 buf 0,
        msgHdr := hdrDecode ((buf.drop 4).take 10), msgBody := buf.drop 14, msgValid := true } [0x00]

/-- An outcome at `s` that is one of the command's effects. -/
def HasEffect (i : Instr) (s : State) (o : Host.Outcome State Fault Refusal) : Prop :=
  ∃ (b : Block) (r : Bytes), o = .next (s.answer b r) ∧ Effect s.params s.block i b r

theorem HasEffect.raise (i : Instr) (s : State) {e : Status} (info : Bytes) (he : e ≠ .ok) :
    HasEffect i s (raise e info s) := ⟨_, _, rfl, .refused i e info he⟩

theorem HasEffect.respond_ok {i : Instr} (s : State) (payload : Bytes) (hh : mayWriteHdr i = false)
    (hm : mayWriteMsg i = false) : HasEffect i s (respond .ok payload s) := ⟨_, _, rfl, .readOnly i payload hh hm⟩

/-- Every command has one of its effects, whatever the state. -/
theorem exec_hasEffect (i : Instr) (s : State) : HasEffect i s (exec i s) := by
  cases i with
  | sidPack dir dev => exact .respond_ok s _ rfl rfl
  | sidUnpack sid => exact .respond_ok s _ rfl rfl
  | sidEncode sid => exact .respond_ok s _ rfl rfl
  | sidDecode buf =>
    rw [exec_sidDecode]
    split_ifs
    · exact .raise _ s _ (by decide)
    · exact .raise _ s _ (by decide)
    · exact .respond_ok s _ rfl rfl
  | hb2Pack w t => exact .respond_ok s _ rfl rfl
  | hb2Unpack hb2 => exact .respond_ok s _ rfl rfl
  | hb2Encode hb2 => exact .respond_ok s _ rfl rfl
  | hb2Decode buf =>
    rw [exec_hb2Decode]
    split_ifs
    · exact .raise _ s _ (by decide)
    · exact .raise _ s _ (by decide)
    · exact .respond_ok s _ rfl rfl
  | hdrBuild kind sid dir dev hb2 w stream fn sys =>
    cases hk : MessageKind.ofSType kind with
    | none => simpa only [exec_hdrBuild, hk] using .raise _ s _ (by decide)
    | some k => exact ⟨_, _, by simp only [exec_hdrBuild, hk]; rfl, .hdrBuild _ _ _ _ _ _ _ _ _ k hk⟩
  | hdrDecode buf =>
    rw [exec_hdrDecode]
    split_ifs with hcap hshort
    · exact .raise _ s _ (by decide)
    · exact .raise _ s _ (by decide)
    · exact ⟨_, _, rfl, .hdrDecode buf (Nat.not_lt.mp hcap) (Nat.not_lt.mp hshort)⟩
  | hdrEncode =>
    rw [exec_hdrEncode]
    split_ifs
    · exact .respond_ok s _ rfl rfl
    · exact .raise _ s _ (by decide)
  | resolveKind =>
    rw [exec_resolveKind]
    split_ifs
    · split
      · exact .raise _ s _ (by decide)
      · exact .respond_ok s _ rfl rfl
    · exact .raise _ s _ (by decide)
  | msgBuild body =>
    rw [exec_msgBuild]
    split_ifs with hcap hv
    · exact .raise _ s _ (by decide)
    · exact ⟨_, _, rfl, .msgBuild body (Nat.not_lt.mp hcap) hv⟩
    · exact .raise _ s _ (by decide)
  | frameEncode =>
    rw [exec_frameEncode]
    split_ifs
    · exact .respond_ok s _ rfl rfl
    · exact .raise _ s _ (by decide)
  | frameDecode buf =>
    rw [exec_frameDecode]
    split_ifs with hcap hshort hlen
    · exact .raise _ s _ (by decide)
    · exact .raise _ s _ (by decide)
    · exact .raise _ s _ (by decide)
    · exact ⟨_, _, rfl, .frameDecode buf (Nat.not_lt.mp hcap) (Nat.not_lt.mp hshort) (Bool.eq_false_iff.mpr hlen)⟩

/-- What a command that ran did, read off its next state. -/
theorem effect_of_exec {i : Instr} {s s' : State} (h : exec i s = .next s') :
    ∃ r, s' = s.answer s'.block r ∧ Effect s.params s.block i s'.block r := by
  obtain ⟨b, r, heq, e⟩ := exec_hasEffect i s
  obtain rfl : s.answer b r = s' := Host.Outcome.next.inj (heq.symm.trans h)
  exact ⟨r, rfl, e⟩

/-- What a command that answered did, with the response it gave. -/
theorem effect_of_answers {i : Instr} {s s' : State} {status : Byte} {payload : Bytes} (h : answers i s status payload s') :
    Effect s.params s.block i s'.block (status :: payload) := by
  obtain ⟨hex, hresp⟩ := h
  obtain ⟨r, heq, e⟩ := effect_of_exec hex
  rw [heq, State.answer_responses] at hresp
  obtain rfl : r = status :: payload := by simpa using hresp
  exact e

/-- Everything a step can do to the block: nothing, a reset, or the effect of a command. -/
theorem step_block_cases {s s' : State} (h : step s = .next s') :
    s'.params = s.params ∧
      (s'.block = s.block ∨ (s'.block = Block.reset ∧ ∃ rest, s.inputs = .reset :: rest) ∨
        ∃ i r, Effect s.params s.block i s'.block r) := by
  obtain ⟨-, rfl⟩ | ⟨rest, hin, rfl⟩ | ⟨c, rest, -, ⟨e, -, hrej⟩ | ⟨i, -, hex⟩⟩ := step_cases h
  · exact ⟨rfl, .inl rfl⟩
  · exact ⟨rfl, .inr (.inl ⟨rfl, rest, hin⟩)⟩
  · rw [rejectCommand_eq] at hrej
    cases hrej
    exact ⟨rfl, .inl rfl⟩
  · obtain ⟨r, heq, e⟩ := effect_of_exec hex
    exact ⟨by rw [heq]; rfl, .inr (.inr ⟨i, r, e⟩)⟩

/-- What reset sets up and every effect keeps, every step keeps. -/
theorem step_keeps {P : Block → Prop} {s s' : State} (h : step s = .next s') (hreset : P Block.reset)
    (heffect : ∀ i b' r, Effect s.params s.block i b' r → P s.block → P b') (hs : P s.block) : P s'.block := by
  obtain ⟨-, hb | ⟨hb, -⟩ | ⟨i, r, e⟩⟩ := step_block_cases h
  · rwa [hb]
  · rwa [hb]
  · exact heffect i _ r e hs

/-- Only `OK` has the code 0 (R97). -/
theorem Status.code_eq_zero {st : Status} : st.code = 0x00 ↔ st = .ok := by cases st <;> decide

/-- A refusal is never the response `OK` without payload. -/
theorem Status.refusal_ne_ok {st : Status} {info : Bytes} (hst : st ≠ .ok) : st.code :: info ≠ [0x00] :=
  fun h => hst (Status.code_eq_zero.mp (List.cons.inj h).1)

end Sys2Proof.Machine
end

section
/-! The capacity invariant (10_state.md R23). -/

namespace Sys2Proof.Machine

/-- A command stores a body only when it is within capacity (R59). -/
theorem Effect.keeps_capacity {p : Params} {b b' : Block} {i : Instr} {r : Bytes} (e : Effect p b i b' r)
    (h : b.msgBody.length ≤ p.bodyMax.val) : b'.msgBody.length ≤ p.bodyMax.val := by
  cases e with
  | refused => exact h
  | readOnly => exact h
  | hdrBuild => exact h
  | hdrDecode => exact h
  | msgBuild body hle => exact hle
  | frameDecode buf hle =>
    rw [inputMax_eq] at hle
    simp only [List.length_drop]
    omega

/-- Every step keeps the capacity invariant. -/
theorem step_keeps_capacityInv {s s' : State} (h : step s = .next s') (hs : s.CapacityInv) : s'.CapacityInv := by
  obtain ⟨hp, -⟩ := step_block_cases h
  unfold State.CapacityInv
  rw [hp]
  exact step_keeps (P := fun b => b.msgBody.length ≤ s.params.bodyMax.val) h (Nat.zero_le _)
    (fun _ _ _ e => e.keeps_capacity) hs

/-- The length of a message within capacity fits the length field: `BODY_MAX <= 2^32 - 11` (R6). -/
theorem State.CapacityInv.length_lt {s : State} (h : s.CapacityInv) : 10 + s.block.msgBody.length < 2 ^ 32 := by
  have hmax := s.params.bodyMax.isLt
  unfold State.CapacityInv at h
  omega

/-- Settles O37: the invariant is kept by every effect, and `BODY_MAX` leaves room for the header in the length field. -/
theorem stepKeepsBodyWithinCapacity : Obligations.StepKeepsBodyWithinCapacity := fun _ _ hs h =>
  have hs' := step_keeps_capacityInv h hs
  ⟨hs', hs'.length_lt⟩

end Sys2Proof.Machine
end

section
/-! What a command reads: machines of the same parameters that agree in the registers a command reads get the same response, and
what they agreed in before it they agree in after it (10_state.md R15, R16, R24). -/

namespace Sys2Proof.Machine

open Sys2Proof.Spec

/-- The header register of a block, its valid bit with it. -/
def headerOf (b : Block) : Bool × Header := (b.hdrValid, b.hdr)

theorem headerOf_eq_iff {a b : Block} : headerOf a = headerOf b ↔ a.hdrValid = b.hdrValid ∧ a.hdr = b.hdr := by
  simp [headerOf]

theorem messageOf_eq_iff {a b : Block} :
    messageOf a = messageOf b ↔
      a.msgValid = b.msgValid ∧ a.msgLen = b.msgLen ∧ a.msgHdr = b.msgHdr ∧ a.msgBody = b.msgBody := by
  simp [messageOf]

/-- Outcomes at `s` and at `t` with one response, after which each register agrees that agreed before. -/
def Alike (s t : State) (o o' : Host.Outcome State Fault Refusal) : Prop :=
  ∃ (b b' : Block) (r : Bytes), o = .next (s.answer b r) ∧ o' = .next (t.answer b' r) ∧
    (headerOf s.block = headerOf t.block → headerOf b = headerOf b') ∧
    (messageOf s.block = messageOf t.block → messageOf b = messageOf b')

namespace Alike

variable {s t : State}

theorem respond (st : Status) (payload : Bytes) : Alike s t (respond st payload s) (respond st payload t) :=
  ⟨_, _, _, rfl, rfl, id, id⟩

theorem raise (e : Status) (info : Bytes) : Alike s t (raise e info s) (raise e info t) := respond e info

theorem respond_writeHdr (st : Status) (payload : Bytes) (h : Header) :
    Alike s t (Machine.respond st payload (writeHdr h s)) (Machine.respond st payload (writeHdr h t)) :=
  ⟨_, _, _, rfl, rfl, fun _ => rfl, id⟩

theorem respond_writeMsg (st : Status) (payload : Bytes) (len : U32) (h : Header) (body : Bytes) :
    Alike s t (Machine.respond st payload (writeMsg len h body s)) (Machine.respond st payload (writeMsg len h body t)) :=
  ⟨_, _, _, rfl, rfl, id, fun _ => rfl⟩

theorem respond_writeHdr_writeMsg (st : Status) (payload : Bytes) (len : U32) (h h' : Header) (body : Bytes) :
    Alike s t (Machine.respond st payload (writeHdr h (writeMsg len h' body s)))
      (Machine.respond st payload (writeHdr h (writeMsg len h' body t))) :=
  ⟨_, _, _, rfl, rfl, fun _ => rfl, fun _ => rfl⟩

variable {o o' u u' : Host.Outcome State Fault Refusal}

theorem ite {c : Prop} [Decidable c] (h : Alike s t o o') (h' : Alike s t u u') :
    Alike s t (if c then o else u) (if c then o' else u') := by
  split
  · exact h
  · exact h'

theorem withinCapacity {cap : Nat} {buf : Bytes} (h : Alike s t o o') :
    Alike s t (withinCapacity cap buf s o) (withinCapacity cap buf t o') := .ite (.raise _ _) h

theorem readHdr {rule rule' : Header → Host.Outcome State Fault Refusal} (hreg : headerOf s.block = headerOf t.block)
    (h : ∀ x, Alike s t (rule x) (rule' x)) : Alike s t (readHdr s rule) (readHdr t rule') := by
  obtain ⟨hv, hh⟩ := headerOf_eq_iff.mp hreg
  unfold Machine.readHdr
  rw [hv, hh]
  exact .ite (h _) (.raise _ _)

theorem readMsg {rule rule' : U32 → Header → Bytes → Host.Outcome State Fault Refusal}
    (hreg : messageOf s.block = messageOf t.block) (h : ∀ len x body, Alike s t (rule len x body) (rule' len x body)) :
    Alike s t (readMsg s rule) (readMsg t rule') := by
  obtain ⟨hv, hlen, hh, hbody⟩ := messageOf_eq_iff.mp hreg
  unfold Machine.readMsg
  rw [hv, hlen, hh, hbody]
  exact .ite (h _ _ _) (.raise _ _)

end Alike

/-- A command's outcome depends on the parameters and on the register it reads, on nothing else of the state. -/
theorem exec_alike (i : Instr) {s t : State} (hp : s.params = t.params)
    (hhdr : readsHdr i = true → headerOf s.block = headerOf t.block)
    (hmsg : i = .frameEncode → messageOf s.block = messageOf t.block) : Alike s t (exec i s) (exec i t) := by
  cases i with
  | sidPack dir dev => exact .respond _ _
  | sidUnpack sid => exact .respond _ _
  | sidEncode sid => exact .respond _ _
  | sidDecode buf =>
    rw [exec_sidDecode, exec_sidDecode, hp]
    exact .ite (.raise _ _) (.ite (.raise _ _) (.respond _ _))
  | hb2Pack w t => exact .respond _ _
  | hb2Unpack hb2 => exact .respond _ _
  | hb2Encode hb2 => exact .respond _ _
  | hb2Decode buf =>
    rw [exec_hb2Decode, exec_hb2Decode, hp]
    exact .ite (.raise _ _) (.ite (.raise _ _) (.respond _ _))
  | hdrBuild kind sid dir dev hb2 w stream fn sys =>
    rw [exec_hdrBuild, exec_hdrBuild]
    split
    · exact .raise _ _
    · exact .respond_writeHdr _ _ _
  | hdrDecode buf =>
    rw [exec_hdrDecode, exec_hdrDecode, hp]
    exact .ite (.raise _ _) (.ite (.raise _ _) (.respond_writeHdr _ _ _))
  | hdrEncode => exact Alike.readHdr (hhdr rfl) fun _ => .respond _ _
  | resolveKind =>
    show Alike s t (execResolveKind s) (execResolveKind t)
    refine .readHdr (hhdr rfl) fun h => ?_
    cases MessageKind.ofSType h.st with
    | none => exact .raise _ _
    | some _ => exact .respond _ _
  | msgBuild body =>
    show Alike s t (execMsgBuild body s) (execMsgBuild body t)
    unfold execMsgBuild
    rw [hp]
    exact .withinCapacity (.readHdr (hhdr rfl) fun _ => .respond_writeMsg _ _ _ _ _)
  | frameEncode => exact Alike.readMsg (hmsg rfl) fun _ _ _ => .respond _ _
  | frameDecode buf =>
    rw [exec_frameDecode, exec_frameDecode, hp]
    exact .ite (.raise _ _) (.ite (.raise _ _) (.ite (.raise _ _) (.respond_writeHdr_writeMsg _ _ _ _ _ _)))

/-- A reader of `HDR` whose operand is within capacity answers `NOT_INITIALISED` (0x82) exactly when `HDR_VALID` is 0 (R113). -/
theorem exec_readsHdr_status {i : Instr} {s : State} (hi : readsHdr i = true) (hcap : withinItsCapacity s.params i) :
    ∃ b st payload, exec i s = .next (s.answer b (st :: payload)) ∧ (st = 0x82 ↔ s.block.hdrValid = false) := by
  cases i with
  | hdrEncode =>
    rw [exec_hdrEncode]
    split_ifs with hv
    · exact ⟨_, _, _, rfl, by simp [Status.code, hv]⟩
    · exact ⟨_, _, _, rfl, by simp [Status.code, hv]⟩
  | resolveKind =>
    rw [exec_resolveKind]
    split_ifs with hv
    · split
      · exact ⟨_, _, _, rfl, by simp [Status.code, hv]⟩
      · exact ⟨_, _, _, rfl, by simp [Status.code, hv]⟩
    · exact ⟨_, _, _, rfl, by simp [Status.code, hv]⟩
  | msgBuild body =>
    rw [exec_msgBuild, if_neg (Nat.not_lt.mpr hcap)]
    split_ifs with hv
    · exact ⟨_, _, _, rfl, by simp [Status.code, hv]⟩
    · exact ⟨_, _, _, rfl, by simp [Status.code, hv]⟩
  | _ => cases hi

/-- `FRAME_ENCODE` answers `NOT_INITIALISED` (0x82) exactly when `MSG_VALID` is 0 (R113). -/
theorem exec_frameEncode_status (s : State) :
    ∃ b st payload, exec .frameEncode s = .next (s.answer b (st :: payload)) ∧ (st = 0x82 ↔ s.block.msgValid = false) := by
  rw [exec_frameEncode]
  split_ifs with hv
  · exact ⟨_, _, _, rfl, by simp [Status.code, hv]⟩
  · exact ⟨_, _, _, rfl, by simp [Status.code, hv]⟩

end Sys2Proof.Machine
end

section
/-! The registers `HDR` and message: who writes each, and that only reset clears its valid bit (10_state.md R15, R16). -/

namespace Sys2Proof.Machine

open Sys2Proof.Spec

section Effect

variable {p : Params} {b b' : Block} {i : Instr} {r : Bytes}

/-- Only the three writers of `HDR` change it (R15). -/
theorem Effect.headerOf_eq (e : Effect p b i b' r) (hi : mayWriteHdr i = false) : headerOf b' = headerOf b := by
  cases e with
  | refused => rfl
  | readOnly => rfl
  | hdrBuild => cases hi
  | hdrDecode => cases hi
  | msgBuild => rfl
  | frameDecode => cases hi

/-- Only the two writers of the message register change it (R16). -/
theorem Effect.messageOf_eq (e : Effect p b i b' r) (hi : mayWriteMsg i = false) : messageOf b' = messageOf b := by
  cases e with
  | refused => rfl
  | readOnly => rfl
  | hdrBuild => rfl
  | hdrDecode => rfl
  | msgBuild => cases hi
  | frameDecode => cases hi

/-- A writer of `HDR` that answers `OK` sets `HDR_VALID` (R15). -/
theorem Effect.hdrValid_of_ok (e : Effect p b i b' r) (hi : mayWriteHdr i = true) (hr : r = [0x00]) :
    b'.hdrValid = true := by
  cases e with
  | refused _ _ _ hst => exact absurd hr (Status.refusal_ne_ok hst)
  | readOnly _ _ hh => rw [hh] at hi; cases hi
  | hdrBuild => rfl
  | hdrDecode => rfl
  | msgBuild => cases hi
  | frameDecode => rfl

/-- A writer of the message register that answers `OK` sets `MSG_VALID`, and the message's header is then the one in `HDR` (R16). -/
theorem Effect.message_of_ok (e : Effect p b i b' r) (hi : mayWriteMsg i = true) (hr : r = [0x00]) :
    b'.msgValid = true ∧ b'.msgHdr = b'.hdr := by
  cases e with
  | refused _ _ _ hst => exact absurd hr (Status.refusal_ne_ok hst)
  | readOnly _ _ _ hm => rw [hm] at hi; cases hi
  | hdrBuild => cases hi
  | hdrDecode => cases hi
  | msgBuild => exact ⟨rfl, rfl⟩
  | frameDecode => exact ⟨rfl, rfl⟩

/-- No command clears `HDR_VALID`. -/
theorem Effect.keeps_hdrValid (e : Effect p b i b' r) (h : b.hdrValid = true) : b'.hdrValid = true := by
  cases e with
  | refused => exact h
  | readOnly => exact h
  | hdrBuild => rfl
  | hdrDecode => rfl
  | msgBuild => exact h
  | frameDecode => rfl

/-- No command clears `MSG_VALID`. -/
theorem Effect.keeps_msgValid (e : Effect p b i b' r) (h : b.msgValid = true) : b'.msgValid = true := by
  cases e with
  | refused => exact h
  | readOnly => exact h
  | hdrBuild => exact h
  | hdrDecode => exact h
  | msgBuild => rfl
  | frameDecode => rfl

end Effect

/-- A step that makes false of the block what every effect keeps has taken a reset. -/
theorem reset_of_step_ends {P : Block → Prop} {s s' : State} (h : step s = .next s')
    (heffect : ∀ i b' r, Effect s.params s.block i b' r → P s.block → P b') (hs : P s.block) (hs' : ¬ P s'.block) :
    ∃ rest, s.inputs = .reset :: rest := by
  obtain ⟨-, hb | ⟨-, hreset⟩ | ⟨i, r, e⟩⟩ := step_block_cases h
  · exact absurd (hb ▸ hs) hs'
  · exact hreset
  · exact absurd (heffect i _ r e hs) hs'

/-- Where 0x82 tells the two values of a valid bit apart, the statuses at the two values differ. -/
theorem status_ne_of_flip {st st' : Byte} {v : Bool} (h : st = 0x82 ↔ v = false) (h' : st' = 0x82 ↔ (!v) = false) :
    st' ≠ st := by
  rintro rfl
  cases v <;> simp_all

/-- Settles O34: `Effect` says who writes `HDR`, `exec_alike` who does not read it; a reader answers 0x82 at one
value of `HDR_VALID` only. -/
theorem hdrIsWrittenAndReadByThreeCommandsEach : Obligations.HdrIsWrittenAndReadByThreeCommandsEach := by
  refine ⟨fun s s' h hv hv' => ?cleared, fun i s => ?command⟩
  case cleared =>
    exact reset_of_step_ends (P := fun b => b.hdrValid = true) h (fun _ _ _ e => e.keeps_hdrValid) hv (by simp [hv'])
  case command =>
    obtain ⟨b, r, hex, e⟩ := exec_hasEffect i s
    refine ⟨_, hex, fun hi => ?kept, fun hi hr => ?set, fun hi hcap => ?read, fun hi h v => ?unread⟩
    case kept => exact (headerOf_eq_iff.mp (e.headerOf_eq hi)).symm
    case set => exact e.hdrValid_of_ok hi (by simpa using hr)
    case read =>
      obtain ⟨_, st, _, hs, hst⟩ := exec_readsHdr_status hi hcap
      obtain ⟨_, st', _, ht, hst'⟩ := exec_readsHdr_status
        (s := { s with block := { s.block with hdrValid := !s.block.hdrValid } }) hi hcap
      have hne : st' ≠ st := status_ne_of_flip hst hst'
      rw [Host.Outcome.next.inj (hex.symm.trans hs)]
      exact ⟨s.block.hdr, _, _, ht, by simp [hne]⟩
    case unread =>
      obtain ⟨_, _, _, hs, ht, -, hmsg⟩ := exec_alike i (s := s)
        (t := { s with block := { s.block with hdr := h, hdrValid := v } }) rfl (by simp [hi]) fun _ => rfl
      rw [Host.Outcome.next.inj (hex.symm.trans hs)]
      exact ⟨_, ht, rfl, (hmsg rfl).symm⟩

/-- Settles O35: `Effect` says who writes the message register, `exec_alike` who does not read it; `FRAME_ENCODE` answers 0x82 at one value of
`MSG_VALID` only. -/
theorem messageIsWrittenByTwoCommandsAndReadByOne : Obligations.MessageIsWrittenByTwoCommandsAndReadByOne := by
  refine ⟨fun s s' h hv hv' => ?cleared, fun i s => ?command⟩
  case cleared =>
    exact reset_of_step_ends (P := fun b => b.msgValid = true) h (fun _ _ _ e => e.keeps_msgValid) hv (by simp [hv'])
  case command =>
    obtain ⟨b, r, hex, e⟩ := exec_hasEffect i s
    refine ⟨_, hex, fun hi => e.messageOf_eq hi, fun hi hr => ?set, fun hi => ?read, fun hi len h body v => ?unread⟩
    case set => exact e.message_of_ok hi (by simpa using hr)
    case read =>
      obtain rfl := hi
      obtain ⟨_, st, _, hs, hst⟩ := exec_frameEncode_status s
      obtain ⟨_, st', _, ht, hst'⟩ := exec_frameEncode_status
        { s with block := { s.block with msgValid := !s.block.msgValid } }
      have hne : st' ≠ st := status_ne_of_flip hst hst'
      rw [Host.Outcome.next.inj (hex.symm.trans hs)]
      exact ⟨_, _, ht, by simp [hne]⟩
    case unread =>
      obtain ⟨_, _, _, hs, ht, hhdr, -⟩ := exec_alike i (s := s)
        (t := { s with block := { s.block with msgLen := len, msgHdr := h, msgBody := body, msgValid := v } })
        rfl (fun _ => rfl) fun hfe => absurd hfe hi
      rw [Host.Outcome.next.inj (hex.symm.trans hs)]
      exact ⟨_, ht, rfl, (headerOf_eq_iff.mp (hhdr rfl).symm).symm⟩

end Sys2Proof.Machine
end

section
/-! The length relation (10_state.md R22). -/

namespace Sys2Proof.Machine

open Sys2Proof.Spec

/-- `State.LengthInv` is a relation on the block alone. -/
def Block.LengthInv (b : Block) : Prop := b.msgValid = true → b.msgLen.toNat = 10 + b.msgBody.length

theorem State.lengthInv_iff {s : State} : s.LengthInv ↔ s.block.LengthInv := Iff.rfl

theorem Block.lengthInv_reset : Block.reset.LengthInv := fun h => nomatch h

/-- The first four bytes as a length field: `le32` is the number they stand for. -/
theorem toNat_le32_zero (buf : Bytes) (h : 4 ≤ buf.length) : (le32 buf 0).toNat = littleEndian (buf.take 4) := by
  match buf, h with
  | b0 :: b1 :: b2 :: b3 :: rest, _ =>
    rw [toNat_le32]
    simp [littleEndian]
    omega

/-- The length `MSG_BUILD` stores is that of header and body: within capacity it does not wrap (R6, R89). -/
theorem toNat_builtLength {p : Params} {body : Bytes} (h : body.length ≤ p.bodyMax.val) :
    (BitVec.ofNat 32 (10 + body.length)).toNat = 10 + body.length := by
  have hmax := p.bodyMax.isLt
  rw [BitVec.toNat_ofNat]
  omega

section Effect

variable {p : Params} {b b' : Block}

/-- A command keeps the length relation, but for a `FRAME_DECODE` that does not check the declared length. -/
theorem Effect.keeps_lengthInv {i : Instr} {r : Bytes} (e : Effect p b i b' r)
    (hi : p.strictLengthCheck = true ∨ ∀ buf, i ≠ .frameDecode buf) (h : b.LengthInv) : b'.LengthInv := by
  cases e with
  | refused => exact h
  | readOnly => exact h
  | hdrBuild => exact h
  | hdrDecode => exact h
  | msgBuild body hle => exact fun _ => toNat_builtLength hle
  | frameDecode buf _ _ hlen =>
    obtain hstrict | hne := hi
    · exact fun _ => by simpa [lengthRefused, hstrict] using hlen
    · exact absurd rfl (hne buf)

/-- A `MSG_BUILD` that answers `OK` stores the length of its header and body. -/
theorem Effect.msgLen_of_msgBuild {body r : Bytes} (e : Effect p b (.msgBuild body) b' r) (hr : r = [0x00]) :
    b'.msgLen.toNat = 10 + b'.msgBody.length := by
  cases e with
  | refused _ _ _ hst => exact absurd hr (Status.refusal_ne_ok hst)
  | readOnly _ _ _ hm => cases hm
  | msgBuild _ hle => exact toNat_builtLength hle

/-- A `FRAME_DECODE` that answers `OK` stores the declared length. -/
theorem Effect.msgLen_of_frameDecode {buf r : Bytes} (e : Effect p b (.frameDecode buf) b' r) (hr : r = [0x00]) :
    b'.msgLen.toNat = littleEndian (buf.take 4) := by
  cases e with
  | refused _ _ _ hst => exact absurd hr (Status.refusal_ne_ok hst)
  | readOnly _ _ _ hm => cases hm
  | frameDecode _ _ hge => exact toNat_le32_zero buf (by omega)

end Effect

/-- Settles O38: every effect keeps the relation but an unchecked `FRAME_DECODE`, and each writer stores the length its rule names. -/
theorem lengthRelationIsKept : Obligations.LengthRelationIsKept := by
  refine ⟨fun s s' hstrict hs h => ?step, fun i s s' hi hs h => ?exec, fun body s s' h => ?build, fun buf s s' h => ?decode⟩
  case step =>
    exact State.lengthInv_iff.mpr <| step_keeps (P := Block.LengthInv) h Block.lengthInv_reset
      (fun _ _ _ e => e.keeps_lengthInv (.inl hstrict)) (State.lengthInv_iff.mp hs)
  case exec =>
    obtain ⟨r, -, e⟩ := effect_of_exec h
    exact State.lengthInv_iff.mpr (e.keeps_lengthInv (.inr hi) (State.lengthInv_iff.mp hs))
  case build => exact (effect_of_answers h).msgLen_of_msgBuild rfl
  case decode => exact (effect_of_answers h).msgLen_of_frameDecode rfl

end Sys2Proof.Machine
end

section
/-! Reset (10_state.md R26). -/

namespace Sys2Proof.Machine

/-- Settles O51: at all parameters the reset state holds `Block.reset`, whose valid bits are 0. -/
theorem resetClearsValidBits : Obligations.ResetClearsValidBits :=
  ⟨Block.reset_hdrValid, Block.reset_msgValid, fun _ => ⟨Block.reset_hdrValid, Block.reset_msgValid⟩⟩

end Sys2Proof.Machine
end

section
/-! The bits of a frame on the wire (20_memory.md R30, 42_frame.md R92). -/

namespace Sys2Proof.Machine

open Sys2Proof.Spec

/-- Byte `k` of a 32-bit field is its digit of place `k`, whatever follows the field. -/
theorem bytes32_append_getElem? (v : U32) (t : Bytes) {k : Nat} (hk : k < 4) :
    (bytes32 v ++ t)[k]? = some (octet v.toNat k) := by
  rw [bytes32_eq_field32]
  match k, hk with
  | 0, _ => rfl
  | 1, _ => rfl
  | 2, _ => rfl
  | 3, _ => rfl

/-- Offsets 0 to 3 of a frame: the length. -/
theorem frameBytes_getElem?_length (len : U32) (h : Header) (body : Bytes) {k : Nat} (hk : k < 4) :
    (frameBytes len h body)[k]? = some (octet len.toNat k) := by
  rw [frameBytes, List.append_assoc]
  exact bytes32_append_getElem? len _ hk

/-- Offsets 10 to 13 of a frame: the SystemBytes. -/
theorem frameBytes_getElem?_sys (len : U32) (h : Header) (body : Bytes) {k : Nat} (hk : k < 4) :
    (frameBytes len h body)[10 + k]? = some (octet h.sys.toNat k) := by
  rw [Nat.add_comm]
  exact bytes32_append_getElem? h.sys body hk

/-- A bit of a byte cut out of a wider value. -/
theorem getLsbD_extractLsb'_byte {w : Nat} (v : BitVec w) (start : Nat) {j : Nat} (hj : j < 8) :
    (v.extractLsb' start 8).getLsbD j = v.getLsbD (start + j) := by
  simp [hj]

/-- Settles O3: length and SystemBytes are 32-bit fields of the frame, and bytes 4 and 5 are the two halves of the SessionID. -/
theorem frameBitsStandWhereTheWireTableSays : Obligations.FrameBitsStandWhereTheWireTableSays := by
  intro len h body
  refine ⟨length_frameBytes len h body, fun k hk => frameBytes_getElem?_length len h body hk,
    fun k hk => frameBytes_getElem?_sys len h body hk,
    h.sid.extractLsb' 0 8, h.sid.extractLsb' 8 8, rfl, rfl, ?direction, fun j hj => ?deviceHigh, fun j hj => ?deviceLow⟩
  case direction => exact getLsbD_extractLsb'_byte h.sid 8 (by decide)
  case deviceHigh => exact getLsbD_extractLsb'_byte h.sid 8 (by omega)
  case deviceLow => simpa using getLsbD_extractLsb'_byte h.sid 0 hj

end Sys2Proof.Machine
end

section
/-! The body of a message on its way through the block (20_memory.md R32). -/

namespace Sys2Proof.Machine

open Sys2Proof.Spec

/-- From offset 14 on a frame is its body. -/
@[simp] theorem drop_frameBytes (len : U32) (h : Header) (body : Bytes) : (frameBytes len h body).drop 14 = body := rfl

/-- `FRAME_ENCODE` of a valid message answers a frame that carries the stored body. -/
theorem frameEncode_carries_body {s : State} (hv : s.block.msgValid = true) :
    ∃ f, answers .frameEncode s 0x00 f (answered s (0x00 :: f)) ∧ f.drop 14 = s.block.msgBody := by
  refine ⟨frameBytes s.block.msgLen s.block.msgHdr s.block.msgBody, ⟨?_, rfl⟩, drop_frameBytes _ _ _⟩
  rw [exec_frameEncode, if_pos hv]
  rfl

section Effect

variable {p : Params} {b b' : Block} {r : Bytes}

/-- A `MSG_BUILD` that answers `OK` stores its operand as the body. -/
theorem Effect.msgBody_of_msgBuild {body : Bytes} (e : Effect p b (.msgBuild body) b' r) (hr : r = [0x00]) :
    b'.msgBody = body := by
  cases e with
  | refused _ _ _ hst => exact absurd hr (Status.refusal_ne_ok hst)
  | readOnly _ _ _ hm => cases hm
  | msgBuild => rfl

/-- A `FRAME_DECODE` that answers `OK` stores its operand from offset 14 on as the body. -/
theorem Effect.msgBody_of_frameDecode {buf : Bytes} (e : Effect p b (.frameDecode buf) b' r) (hr : r = [0x00]) :
    b'.msgBody = buf.drop 14 := by
  cases e with
  | refused _ _ _ hst => exact absurd hr (Status.refusal_ne_ok hst)
  | readOnly _ _ _ hm => cases hm
  | frameDecode => rfl

end Effect

/-- Settles O4: both writers leave a valid message with the body they were given, and `FRAME_ENCODE` carries the stored body. -/
theorem bodyBytesUnchanged : Obligations.BodyBytesUnchanged := by
  refine ⟨fun body s s' h => ?build, fun buf s s' h => ?decode⟩
  case build =>
    have e := effect_of_answers h
    rw [← e.msgBody_of_msgBuild rfl]
    exact frameEncode_carries_body (e.message_of_ok rfl rfl).1
  case decode =>
    have e := effect_of_answers h
    rw [← e.msgBody_of_frameDecode rfl]
    exact frameEncode_carries_body (e.message_of_ok rfl rfl).1

end Sys2Proof.Machine
end

section
/-! Repeating a command (20_memory.md R35): no command reads a register that it writes, and what it writes the second time is
what it wrote the first time. -/

namespace Sys2Proof.Machine

open Sys2Proof.Spec

/-- No command that reads `HDR` writes it (R15). -/
theorem mayWriteHdr_of_readsHdr {i : Instr} (hi : readsHdr i = true) : mayWriteHdr i = false := by
  cases i with
  | hdrEncode => rfl
  | resolveKind => rfl
  | msgBuild => rfl
  | _ => cases hi

section Effect

variable {p : Params} {b b' b'' : Block} {i : Instr} {r r' : Bytes}

/-- A command that writes neither register leaves the block as it was. -/
theorem Effect.block_eq (e : Effect p b i b' r) (hh : mayWriteHdr i = false) (hm : mayWriteMsg i = false) : b' = b := by
  cases e with
  | refused => rfl
  | readOnly => rfl
  | hdrBuild => cases hh
  | hdrDecode => cases hh
  | msgBuild => cases hm
  | frameDecode => cases hh

/-- What a command wrote when it answered `r` is what it writes when it answers `r` again. -/
theorem Effect.repeated (e : Effect p b i b' r) (e' : Effect p b' i b'' r') (hr : r = r') : b'' = b' := by
  cases e' with
  | refused => rfl
  | readOnly => rfl
  | hdrBuild _ _ _ _ _ _ _ _ _ k hk =>
    cases e with
    | refused _ _ _ hst => exact absurd hr (Status.refusal_ne_ok hst)
    | readOnly _ _ hh => cases hh
    | hdrBuild _ _ _ _ _ _ _ _ _ k' hk' =>
      obtain rfl : k = k' := Option.some.inj (hk.symm.trans hk')
      rfl
  | hdrDecode =>
    cases e with
    | refused _ _ _ hst => exact absurd hr (Status.refusal_ne_ok hst)
    | readOnly _ _ hh => cases hh
    | hdrDecode => rfl
  | msgBuild =>
    cases e with
    | refused _ _ _ hst => exact absurd hr (Status.refusal_ne_ok hst)
    | readOnly _ _ _ hm => cases hm
    | msgBuild => rfl
  | frameDecode =>
    cases e with
    | refused _ _ _ hst => exact absurd hr (Status.refusal_ne_ok hst)
    | readOnly _ _ hh => cases hh
    | frameDecode => rfl

end Effect

/-- An outcome that is an answer has one block and one response. -/
theorem State.answer_inj {s : State} {b b' : Block} {r r' : Bytes}
    (h : (.next (s.answer b r) : Host.Outcome State Fault Refusal) = .next (s.answer b' r')) : b = b' ∧ r = r' := by
  simpa [State.answer] using h

/-- Every command answers; run again on the block it left, it gives the same response and leaves that block. -/
theorem exec_repeated (i : Instr) (s : State) :
    ∃ b r, exec i s = .next (s.answer b r) ∧
      ∀ t : State, t.params = s.params → t.block = b → exec i t = .next (t.answer b r) := by
  obtain ⟨b, r, hs, e⟩ := exec_hasEffect i s
  refine ⟨b, r, hs, ?_⟩
  rintro t hp rfl
  have hhdr : readsHdr i = true → headerOf s.block = headerOf t.block :=
    fun hi => (e.headerOf_eq (mayWriteHdr_of_readsHdr hi)).symm
  have hmsg : i = .frameEncode → messageOf s.block = messageOf t.block :=
    fun hi => (e.messageOf_eq (hi ▸ rfl)).symm
  obtain ⟨_, b', r', hs', ht, -, -⟩ := exec_alike i hp.symm hhdr hmsg
  obtain ⟨b'', r'', ht', e'⟩ := exec_hasEffect i t
  obtain ⟨-, rfl⟩ := State.answer_inj (hs.symm.trans hs')
  obtain ⟨rfl, rfl⟩ := State.answer_inj (ht.symm.trans ht')
  rw [hp] at e'
  rw [ht, e.repeated e' rfl]

/-- Settles O48: the second of two like transactions is rejected as the first or runs on the block that the first left
(`exec_repeated`), and the three readers write neither register. -/
theorem commandsAreIdempotent : Obligations.CommandsAreIdempotent := by
  refine ⟨fun s c rest h => ?twice, fun i s s' hi h => ?readers⟩
  case twice =>
    cases hd : decode c with
    | rejected e => exact ⟨_, _, _, step_rejected h hd, step_rejected rfl hd, rfl, by simp, rfl⟩
    | instr i =>
      obtain ⟨b, r, hs, hagain⟩ := exec_repeated i (acceptInput (.command c :: rest) s)
      exact ⟨_, _, r, (step_instr h hd).trans hs, (step_instr rfl hd).trans (hagain _ rfl rfl), rfl, by simp, rfl⟩
  case readers =>
    obtain ⟨r, -, e⟩ := effect_of_exec h
    obtain rfl | rfl | rfl := hi
    · exact e.block_eq rfl rfl
    · exact e.block_eq rfl rfl
    · exact e.block_eq rfl rfl

end Sys2Proof.Machine
end

section
/-! The length field of a message (30_encoding.md R49): what a frame declares, and what `FRAME_DECODE` keeps of it. -/

namespace Sys2Proof.Machine

open Sys2Proof.Spec

/-- The first four bytes of a frame are its length field. -/
theorem littleEndian_take_frameBytes (len : U32) (h : Header) (body : Bytes) :
    littleEndian ((frameBytes len h body).take 4) = len.toNat := by
  rw [← toNat_le32_zero _ (by rw [length_frameBytes]; omega), frameBytes, List.append_assoc, le32_bytes32_append]

/-- `FRAME_ENCODE` of a valid message answers the frame of the stored length, header and body (R91). -/
theorem answers_frameEncode {s : State} (hv : s.block.msgValid = true) :
    answers .frameEncode s 0x00 (frameBytes s.block.msgLen s.block.msgHdr s.block.msgBody)
      (answered s (0x00 :: frameBytes s.block.msgLen s.block.msgHdr s.block.msgBody)) :=
  ⟨by rw [exec_frameEncode, if_pos hv]; rfl, rfl⟩

/-- Where the check is strict, a `FRAME_DECODE` that answers `OK` has stored a length that counts header and body. -/
theorem Effect.msgLen_of_strict_frameDecode {p : Params} {b b' : Block} {buf r : Bytes}
    (e : Effect p b (.frameDecode buf) b' r) (hr : r = [0x00]) (hstrict : p.strictLengthCheck = true) :
    b'.msgLen.toNat = 10 + b'.msgBody.length := by
  cases e with
  | refused _ _ _ hst => exact absurd hr (Status.refusal_ne_ok hst)
  | readOnly _ _ _ hm => cases hm
  | frameDecode _ _ _ hlen => simpa [lengthRefused, hstrict] using hlen

/-- Settles O29: `MSG_BUILD` stores the length that the next frame declares; `FRAME_DECODE` stores the declared one, which the strict
check has compared with the body. -/
theorem lengthFieldOfBuiltAndDecodedFrames : Obligations.LengthFieldOfBuiltAndDecodedFrames := by
  refine ⟨fun body s s' h => ?build, fun buf s s' h => ?decode⟩
  case build =>
    have e := effect_of_answers h
    refine ⟨_, answers_frameEncode (e.message_of_ok rfl rfl).1, ?_⟩
    rw [littleEndian_take_frameBytes, e.msgLen_of_msgBuild rfl, e.msgBody_of_msgBuild rfl]
  case decode =>
    have e := effect_of_answers h
    exact ⟨e.msgLen_of_frameDecode rfl, e.msgLen_of_strict_frameDecode rfl⟩

end Sys2Proof.Machine
end

section
/-! The decoder's verdicts in the words of the obligations: the opcode map and the format lengths as lists (30_encoding.md R53 to R58). -/

namespace Sys2Proof.Machine

open Sys2Proof.Spec

/-- A rejected transaction gets the status of its verdict, and nothing else of the state changes but that it has been taken. -/
theorem step_rejected_answered {s : State} {c : Bytes} {e : DecodeError} {rest : List Input}
    (h : s.inputs = .command c :: rest) (hd : decode c = .rejected e) :
    step s = .next (answered { s with inputs := rest } [(decodeErrorStatus e).code]) := by
  rw [step_rejected h hd, rejectCommand_eq]
  rfl

/-- The opcodes stand in three ranges (R56). -/
theorem opcode_byte_range (o : Opcode) :
    (0x01 ≤ o.byte.toNat ∧ o.byte.toNat ≤ 0x08) ∨ (0x10 ≤ o.byte.toNat ∧ o.byte.toNat ≤ 0x13) ∨
      (0x20 ≤ o.byte.toNat ∧ o.byte.toNat ≤ 0x22) := by
  cases o <;> decide

/-- A transaction whose first byte is no opcode is rejected as illegal, whatever follows (R57). -/
theorem decode_illegal {op : Byte} (h : ∀ o : Opcode, o.byte ≠ op) (t : Bytes) :
    decode (op :: t) = .rejected .illegalOpcode := by
  rw [decode_cons, Opcode.ofByte_eq_none.mpr h]

/-- Settles O44: the four ranges miss the three ranges of the opcodes, so the decoder rejects the first byte. -/
theorem illegalOpcodesAreAnswered : Obligations.IllegalOpcodesAreAnswered := by
  intro s op c rest hin hop
  rw [← BitVec.toNat_inj, show (0x00 : Byte).toNat = 0 from rfl] at hop
  refine step_rejected_answered hin (decode_illegal (fun o ho => ?_) c)
  have hrange := opcode_byte_range o
  rw [ho] at hrange
  omega

/-- The two lists hold exactly the opcodes' bytes. -/
theorem mem_formats_iff {op : Byte} :
    (op ∈ fixedFormats.map Prod.fst ∨ op ∈ formatV) ↔ ∃ o : Opcode, o.byte = op := by
  constructor
  · have hlists : ∀ b ∈ fixedFormats.map Prod.fst ++ formatV, ∃ o ∈ Opcode.all, o.byte = b := by decide
    intro h
    obtain ⟨o, -, ho⟩ := hlists op (List.mem_append.mpr h)
    exact ⟨o, ho⟩
  · rintro ⟨o, rfl⟩
    cases o <;> decide

/-- The format V opcodes are those of the list. -/
theorem byte_mem_formatV_iff (o : Opcode) : o.byte ∈ formatV ↔ o.format = .v := by cases o <;> decide

/-- The list of fixed formats gives each opcode that is not of format V the length of its format, and no other. -/
theorem mem_fixedFormats_iff (o : Opcode) (n : Nat) :
    (o.byte, n) ∈ fixedFormats ↔ o.format ≠ .v ∧ n = o.format.commandLength 0 := by
  cases o <;> simp [fixedFormats, Opcode.byte, Opcode.format, Format.commandLength]

/-- The length check of a fixed format. -/
theorem lengthRight_fixed {f : Format} (hf : f ≠ .v) (c : Bytes) :
    f.lengthRight c = true ↔ c.length = f.commandLength 0 := by
  cases f with
  | v => exact absurd rfl hf
  | n | s1 | s2 | b1 | b2 | k => exact beq_iff_eq

/-- The length check of format V, with the field `n` as a number. -/
theorem lengthRight_v_iff (op : Byte) (t : Bytes) :
    Format.v.lengthRight (op :: t) = true ↔
      5 ≤ (op :: t).length ∧ (op :: t).length = 5 + littleEndian (((op :: t).drop 1).take 4) := by
  rw [lengthRight_v, List.length_cons, List.drop_one, List.tail_cons]
  constructor
  · rintro ⟨hge, hlen⟩
    rw [toNat_le32_zero t hge] at hlen
    omega
  · rintro ⟨hge, hlen⟩
    rw [toNat_le32_zero t (by omega)]
    omega

/-- The decoder's length check is the one of the obligations. -/
theorem lengthMatches_iff (o : Opcode) (t : Bytes) :
    lengthMatches o.byte (o.byte :: t) ↔ o.format.lengthRight (o.byte :: t) = true := by
  rw [lengthMatches, mem_fixedFormats_iff, byte_mem_formatV_iff]
  by_cases hv : o.format = .v
  · simp only [hv, lengthRight_v_iff, ne_eq, not_true_eq_false, false_and, true_and, false_or]
  · simp only [hv, lengthRight_fixed hv, ne_eq, not_false_eq_true, true_and, false_and, or_false]

/-- A transaction that begins with an opcode and has not the length of its format is rejected as malformed (R58). -/
theorem decode_wrong_length {o : Opcode} {t : Bytes} (h : ¬lengthMatches o.byte (o.byte :: t)) :
    decode (o.byte :: t) = .rejected .malformedCommand := by
  rw [decode_opcode, if_neg (mt (lengthMatches_iff o t).mpr h)]

/-- Settles O45: the empty transaction and every wrong length get the decoder's verdict `MALFORMED_COMMAND`. -/
theorem wrongLengthsAreAnswered : Obligations.WrongLengthsAreAnswered := by
  rintro s c rest hin (rfl | ⟨op, t, rfl, hop, hlen⟩)
  · exact step_rejected_answered hin rfl
  · obtain ⟨o, rfl⟩ := mem_formats_iff.mp hop
    exact step_rejected_answered hin (decode_wrong_length hlen)

end Sys2Proof.Machine
end

section
/-! The ten header bytes (30_encoding.md R43). -/

namespace Sys2Proof.Machine

open Sys2Proof.Spec

/-- The header as a byte string of its own is the one of the obligations. -/
theorem hdrBytes_eq_headerBytes (h : Header) : hdrBytes h = headerBytes h := by
  rw [hdrBytes, headerBytes, bytes16_eq_field16, bytes32_eq_field32]

/-- Header offset `k` is frame offset `k + 4`. -/
theorem frameBytes_getElem?_header (len : U32) (h : Header) (body : Bytes) {k : Nat} (hk : k < 10) :
    (frameBytes len h body)[k + 4]? = (hdrBytes h)[k]? := by
  rw [frameBytes, List.append_assoc, List.getElem?_append_right (by simp), length_bytes32, Nat.add_sub_cancel,
    List.getElem?_append_left hk]

/-- Settles O2: the fields are written low byte first, and the header stands behind the four bytes of the length. -/
theorem headerLayout : Obligations.HeaderLayout := fun len h body =>
  ⟨hdrBytes_eq_headerBytes h, fun _ hk => frameBytes_getElem?_header len h body hk⟩

end Sys2Proof.Machine
end

section
/-! The least frame (30_encoding.md R50) and the capacity check (R59). -/

namespace Sys2Proof.Machine

open Sys2Proof.Spec

/-- Fewer than 14 bytes are no frame: they are always within capacity, and too short (R93). -/
theorem frameDecode_short {buf : Bytes} (h : buf.length < 14) (s : State) :
    exec (.frameDecode buf) s = .next (answered s [0x01]) := by
  have hcap : ¬inputMax s.params < buf.length := by rw [inputMax_eq]; omega
  rw [exec_frameDecode, if_neg hcap, if_pos h]
  rfl

/-- 14 bytes or more within capacity, of a length that is not refused, are a frame (R93). -/
theorem frameDecode_accepted {buf : Bytes} {s : State} (hge : 14 ≤ buf.length) (hle : buf.length ≤ inputMax s.params)
    (hlen : lengthRefused s.params (le32 buf 0) (buf.drop 14) = false) :
    exec (.frameDecode buf) s = respond .ok [] (writeHdr (hdrDecode ((buf.drop 4).take 10))
      (writeMsg (le32 buf 0) (hdrDecode ((buf.drop 4).take 10)) (buf.drop 14) s)) := by
  rw [exec_frameDecode, if_neg (Nat.not_lt.mpr hle), if_neg (Nat.not_lt.mpr hge), hlen, if_neg Bool.false_ne_true]

/-- Settles O28: up to 13 bytes are too short; 14 bytes leave nothing for the body, so a declared length of 10 is the right one. -/
theorem frameOfFourteenBytesIsTheLeast : Obligations.FrameOfFourteenBytesIsTheLeast := by
  refine ⟨fun buf s h => frameDecode_short (by omega) s, fun buf s h hstrict => ?_⟩
  have hbody : buf.drop 14 = [] := List.drop_eq_nil_of_le h.le
  have hlen : lengthRefused s.params (le32 buf 0) (buf.drop 14) = false := by
    rw [← Bool.not_eq_true, lengthRefused_eq_true, toNat_le32_zero buf (by omega), hbody]
    exact fun ⟨hon, hne⟩ => hne (hstrict hon)
  have hcap : buf.length ≤ inputMax s.params := by rw [inputMax_eq]; omega
  exact ⟨_, ⟨frameDecode_accepted h.ge hcap hlen, rfl⟩, hbody, rfl⟩

/-- An operand above capacity is answered `CAPACITY_EXCEEDED`, whatever the command's own rule. -/
theorem withinCapacity_exceeded {cap : Nat} {buf : Bytes} (h : cap < buf.length) (s : State)
    (rule : Host.Outcome State Fault Refusal) : withinCapacity cap buf s rule = .next (answered s [0x83]) := by
  rw [withinCapacity_of_lt h, raise_eq]
  rfl

/-- Settles O43: each of the five commands makes the capacity check before its own rule. -/
theorem capacityExceeded : Obligations.CapacityExceeded := fun _ s =>
  ⟨fun h => withinCapacity_exceeded h s _, fun h =>
    ⟨withinCapacity_exceeded h s _, withinCapacity_exceeded h s _, withinCapacity_exceeded h s _,
      withinCapacity_exceeded h s _⟩⟩

end Sys2Proof.Machine
end

section
/-! Encoding examples and pseudo-instructions (30_encoding.md R63, R64). -/

namespace Sys2Proof.Machine

open Sys2Proof.Spec

/-- Settles O56: five closed examples, each evaluated both ways. -/
theorem writtenWordsDecode : Obligations.WrittenWordsDecode := by
  unfold Obligations.WrittenWordsDecode
  decide

/-- `HDR_BUILD` depends on its operands only through the header that the dispatch multiplexer makes of them. -/
theorem exec_hdrBuild_congr {kind : Byte} {sid sid' dir dir' dev dev' : U16}
    {hb2 hb2' w w' stream stream' fn fn' : Byte} {sys : U32}
    (h : ∀ k : MessageKind, k.sType = kind →
      hdrBuild k sid dir dev hb2 w stream fn sys = hdrBuild k sid' dir' dev' hb2' w' stream' fn' sys) (s : State) :
    exec (.hdrBuild kind sid dir dev hb2 w stream fn sys) s =
      exec (.hdrBuild kind sid' dir' dev' hb2' w' stream' fn' sys) s := by
  rw [exec_hdrBuild, exec_hdrBuild]
  cases hk : MessageKind.ofSType kind with
  | none => rfl
  | some k => simp only [h k (MessageKind.sType_of_ofSType hk)]

section Ignored

variable {k : MessageKind} {sid sid' dir dir' dev dev' : U16} {hb2 hb2' w w' stream stream' fn fn' : Byte} {sys : U32}

/-- The data row takes no SessionID and no HeaderByte2 (R81). -/
theorem hdrBuild_data_ignores (hk : k.sType = 0) :
    hdrBuild k sid dir dev hb2 w stream fn sys = hdrBuild k sid' dir dev hb2' w stream fn sys := by
  cases k with
  | data => rfl
  | selectReq | selectRsp | deselectReq | deselectRsp | linktestReq | linktestRsp | rejectReq | separateReq =>
    exact absurd hk (by decide)

/-- The rows of the requests, of linktest and of separate take the SystemBytes only (R81). -/
theorem hdrBuild_request_ignores (hk : k.sType ∈ ([1, 3, 5, 6, 9] : List Byte)) :
    hdrBuild k sid dir dev hb2 w stream fn sys = hdrBuild k sid' dir' dev' hb2' w' stream' fn' sys := by
  cases k with
  | selectReq | deselectReq | linktestReq | linktestRsp | separateReq => rfl
  | data | selectRsp | deselectRsp | rejectReq => exact absurd hk (by decide)

/-- The rows of the two responses take SessionID, function byte and SystemBytes (R81). -/
theorem hdrBuild_response_ignores (hk : k.sType ∈ ([2, 4] : List Byte)) :
    hdrBuild k sid dir dev hb2 w stream fn sys = hdrBuild k sid dir' dev' hb2' w' stream' fn sys := by
  cases k with
  | selectRsp | deselectRsp => rfl
  | data | selectReq | deselectReq | linktestReq | linktestRsp | rejectReq | separateReq => exact absurd hk (by decide)

/-- The row of reject takes HeaderByte2 besides (R81). -/
theorem hdrBuild_reject_ignores (hk : k.sType = 7) :
    hdrBuild k sid dir dev hb2 w stream fn sys = hdrBuild k sid dir' dev' hb2 w' stream' fn sys := by
  cases k with
  | rejectReq => rfl
  | data | selectReq | selectRsp | deselectReq | deselectRsp | linktestReq | linktestRsp | separateReq =>
    exact absurd hk (by decide)

end Ignored

/-- Settles O59: the expansions are the table's rows, and an operand written as 0 is one that the kind's row does not take. -/
theorem pseudoInstructionExpansions : Obligations.PseudoInstructionExpansions := by
  intro sid sid' dir dir' dev dev' hb2 hb2' w w' stream stream' fn fn' sys body
  refine ⟨rfl, rfl, rfl, rfl, rfl, rfl, rfl, rfl, rfl, rfl, fun s =>
    ⟨?data, fun kind hkind => ?request, fun kind hkind => ?response, ?reject⟩⟩
  case data => exact exec_hdrBuild_congr (fun _ hk => hdrBuild_data_ignores hk) s
  case request =>
    exact exec_hdrBuild_congr (fun _ hk => hdrBuild_request_ignores (hk ▸ hkind)) s
  case response =>
    exact exec_hdrBuild_congr (fun _ hk => hdrBuild_response_ignores (hk ▸ hkind)) s
  case reject => exact exec_hdrBuild_congr (fun _ hk => hdrBuild_reject_ignores hk) s

end Sys2Proof.Machine
end

section
/-! Decoding undoes encoding (30_encoding.md R52 to R55): the encoding has its format's length, and the operands stand where the
decoder reads them. -/

namespace Sys2Proof

open Sys2Proof.Spec

/-- The encoding of a well-formed instruction has the length of its format. -/
theorem lengthRight_encode {i : Instr} (h : i.wellFormed = true) : i.opcode.format.lengthRight (encode i) = true := by
  cases i with
  | sidPack => exact Laws.EncodeLength.sidPack _ _ h
  | sidUnpack => exact Laws.EncodeLength.sidUnpack _ h
  | sidEncode => exact Laws.EncodeLength.sidEncode _ h
  | sidDecode => exact Laws.EncodeLength.sidDecode _ h
  | hb2Pack => exact Laws.EncodeLength.hb2Pack _ _ h
  | hb2Unpack => exact Laws.EncodeLength.hb2Unpack _ h
  | hb2Encode => exact Laws.EncodeLength.hb2Encode _ h
  | hb2Decode => exact Laws.EncodeLength.hb2Decode _ h
  | hdrBuild => exact Laws.EncodeLength.hdrBuild _ _ _ _ _ _ _ _ _ h
  | hdrDecode => exact Laws.EncodeLength.hdrDecode _ h
  | hdrEncode => exact Laws.EncodeLength.hdrEncode h
  | resolveKind => exact Laws.EncodeLength.resolveKind h
  | msgBuild => exact Laws.EncodeLength.msgBuild _ h
  | frameEncode => exact Laws.EncodeLength.frameEncode h
  | frameDecode => exact Laws.EncodeLength.frameDecode _ h

/-- The operands read from an encoding are those that were written. -/
theorem operands_encode (i : Instr) : i.opcode.operands (encode i) = i := by
  cases i with
  | sidPack => exact congrArg₂ Instr.sidPack (le16_of_bytes _ 1 _ rfl rfl) (le16_of_bytes _ 3 _ rfl rfl)
  | sidUnpack => exact congrArg Instr.sidUnpack (le16_of_bytes _ 1 _ rfl rfl)
  | sidEncode => exact congrArg Instr.sidEncode (le16_of_bytes _ 1 _ rfl rfl)
  | hdrBuild kind sid dir dev hb2 w stream fn sys =>
    refine (Instr.hdrBuild.injEq ..).mpr ⟨rfl, ?sid, ?dir, ?dev, rfl, rfl, rfl, rfl, ?sys⟩
    case sid => exact le16_of_bytes _ 2 _ rfl rfl
    case dir => exact le16_of_bytes _ 4 _ rfl rfl
    case dev => exact le16_of_bytes _ 6 _ rfl rfl
    case sys => exact le32_of_bytes _ 12 _ rfl rfl rfl rfl
  | hb2Pack | hb2Unpack | hb2Encode => rfl
  | sidDecode | hb2Decode | hdrDecode | msgBuild | frameDecode => rfl
  | hdrEncode | resolveKind | frameEncode => rfl

/-- A well-formed instruction is read back from its encoding. -/
theorem decode_encode {i : Instr} (h : i.wellFormed = true) : decode (encode i) = .instr i := by
  have hlen := lengthRight_encode h
  have hops := operands_encode i
  rw [encode] at hlen hops ⊢
  rw [decode_opcode, if_pos hlen, hops]

/-- The bytes of a format V command after its opcode, in the words of the obligations. -/
theorem encodeBuffer_eq_lengthField {buf : Bytes} (h : buf.length < 2 ^ 32) :
    encodeBuffer buf = lengthField buf.length ++ buf := by
  have hfield : bytes32 (BitVec.ofNat 32 buf.length) = lengthField (BitVec.ofNat 32 buf.length).toNat :=
    bytes32_eq_field32 _
  rw [encodeBuffer, hfield, BitVec.toNat_ofNat, Nat.mod_eq_of_lt h]

end Sys2Proof
end

section
/-! Two masks that cut a word in two, as the bit codecs do (30_encoding.md R45, R46). -/

namespace Sys2Proof

variable {w : Nat} {m n : BitVec w}

/-- The parts under two masks that cover the word make up the word. -/
theorem join_of_split (hcover : m ||| n = BitVec.allOnes w) (x : BitVec w) : (x &&& m &&& m) ||| (x &&& n &&& n) = x := by
  rw [BitVec.and_assoc, BitVec.and_self, BitVec.and_assoc, BitVec.and_self, ← BitVec.and_or_distrib_left, hcover,
    BitVec.and_allOnes]

/-- Under the first of two masks that do not meet, joined parts show the first part. -/
theorem left_of_join (hdisjoint : m &&& n = 0) (x y : BitVec w) : ((x &&& m) ||| (y &&& n)) &&& m = x &&& m := by
  rw [BitVec.and_or_distrib_right, BitVec.and_assoc, BitVec.and_self, BitVec.and_assoc, BitVec.and_comm n, hdisjoint]
  simp

/-- Under the second of two masks that do not meet, joined parts show the second part. -/
theorem right_of_join (hdisjoint : m &&& n = 0) (x y : BitVec w) : ((x &&& m) ||| (y &&& n)) &&& n = y &&& n := by
  rw [BitVec.or_comm, left_of_join (BitVec.and_comm m n ▸ hdisjoint)]

end Sys2Proof
end

section
/-! The SessionID and HeaderByte2 codecs (40_sessionid_headerbyte2.md): the outcome of each of the eight commands. -/

namespace Sys2Proof.Machine

open Sys2Proof.Spec

/-! `respond` and `raise` in the words of the obligations. -/

theorem respond_ok_eq_answered (payload : Bytes) (s : State) :
    respond .ok payload s = .next (answered s (0x00 :: payload)) := rfl

theorem raise_eq_answered (e : Status) (info : Bytes) (s : State) :
    raise e info s = .next (answered s (e.code :: info)) := rfl

/-! The commands without a condition, as one equation each. -/

theorem exec_sidPack (dir dev : U16) (s : State) :
    exec (.sidPack dir dev) s = respond .ok (bytes16 (sidPack dir dev)) s := rfl

theorem exec_sidUnpack (sid : U16) (s : State) :
    exec (.sidUnpack sid) s = respond .ok (bytes16 (sidUnpack sid).1 ++ bytes16 (sidUnpack sid).2) s := rfl

theorem exec_sidEncode (sid : U16) (s : State) : exec (.sidEncode sid) s = respond .ok (bytes16 sid) s := rfl

theorem exec_hb2Pack (w t : Byte) (s : State) : exec (.hb2Pack w t) s = respond .ok [hb2Pack w t] s := rfl

theorem exec_hb2Unpack (hb2 : Byte) (s : State) :
    exec (.hb2Unpack hb2) s = respond .ok [(hb2Unpack hb2).1, (hb2Unpack hb2).2] s := rfl

theorem exec_hb2Encode (hb2 : Byte) (s : State) : exec (.hb2Encode hb2) s = respond .ok [hb2] s := rfl

/-! The two decode commands: too short, and within capacity. -/

/-- Fewer than two bytes are always within capacity, and too short (R72). -/
theorem sidDecode_short {buf : Bytes} (h : buf.length < 2) (s : State) :
    exec (.sidDecode buf) s = .next (answered s [0x04]) := by
  have hcap : ¬inputMax s.params < buf.length := by rw [inputMax_eq]; omega
  rw [exec_sidDecode, if_neg hcap, if_pos h, raise_eq_answered, Status.code]

/-- Two bytes or more within capacity: the first two are answered (R72). -/
theorem sidDecode_accepted {buf : Bytes} {s : State} (hge : 2 ≤ buf.length) (hle : buf.length ≤ inputMax s.params) :
    exec (.sidDecode buf) s = .next (answered s (0x00 :: bytes16 (le16 buf 0))) := by
  rw [exec_sidDecode, if_neg (Nat.not_lt.mpr hle), if_neg (Nat.not_lt.mpr hge), respond_ok_eq_answered]

/-- The empty string is within capacity, and too short (R76). -/
theorem hb2Decode_nil (s : State) : exec (.hb2Decode []) s = .next (answered s [0x04]) := by
  rw [exec_hb2Decode, if_neg (by simp), if_pos (by simp), raise_eq_answered, Status.code]

/-- One byte or more within capacity: the first is answered (R76). -/
theorem hb2Decode_accepted {a : Byte} {rest : Bytes} {s : State} (hle : (a :: rest).length ≤ inputMax s.params) :
    exec (.hb2Decode (a :: rest)) s = .next (answered s [0x00, a]) := by
  rw [exec_hb2Decode, if_neg (Nat.not_lt.mpr hle), if_neg (by simp), byteAt_cons_zero, respond_ok_eq_answered]

/-- Settles O13: the masks of each codec cover the word and do not meet, and each decode command answers what stands first. -/
theorem codecLaws : Obligations.CodecLaws := by
  refine ⟨fun _ _ => rfl, fun v => ?sidJoin, fun d e => ?sidSplit, fun _ _ => rfl, fun h => ?hb2Join,
    fun v b s hle => ?sidDecode, fun h b s hle => hb2Decode_accepted hle⟩
  case sidJoin => exact join_of_split (by decide) v
  case sidSplit => exact Prod.ext (left_of_join (by decide) d e) (right_of_join (by decide) d e)
  case hb2Join => exact join_of_split (by decide) h
  case sidDecode => rw [sidDecode_accepted (by simp) hle, le16_bytes16_append, bytes16_eq_field16]

/-- Settles O5: the bytes are the command's encoding, and the masked word is answered. -/
theorem sidPackMasks : Obligations.SidPackMasks := by
  refine fun dir dev => ⟨?decoded, fun s => ?run⟩
  case decoded =>
    rw [← bytes16_eq_field16, ← bytes16_eq_field16]
    exact decode_encode (i := .sidPack dir dev) rfl
  case run => rw [exec_sidPack, respond_ok_eq_answered, bytes16_eq_field16, sidPack]

/-- Settles O6: the bytes are the command's encoding, and the two masked words are answered. -/
theorem sidUnpackSplits : Obligations.SidUnpackSplits := by
  refine fun sid => ⟨?decoded, fun s => ?run⟩
  case decoded =>
    rw [← bytes16_eq_field16]
    exact decode_encode (i := .sidUnpack sid) rfl
  case run => rw [exec_sidUnpack, respond_ok_eq_answered, bytes16_eq_field16, bytes16_eq_field16, sidUnpack]

/-- Settles O7: the bytes are the command's encoding, and the operand's own two bytes are answered. -/
theorem sidEncodeLowByteFirst : Obligations.SidEncodeLowByteFirst := by
  refine fun sid => ⟨?decoded, fun s => ?run⟩
  case decoded =>
    rw [← bytes16_eq_field16]
    exact decode_encode (i := .sidEncode sid) rfl
  case run => rw [exec_sidEncode, respond_ok_eq_answered, bytes16_eq_field16]

/-- Settles O8: the bytes are the command's encoding; two bytes put together and taken apart are the same two bytes. -/
theorem sidDecodeFirstTwoBytes : Obligations.SidDecodeFirstTwoBytes := by
  refine ⟨fun buf h => ?decoded, fun buf s h => sidDecode_short h s, fun a b rest s hle => ?accepted⟩
  case decoded =>
    rw [← encodeBuffer_eq_lengthField h]
    exact decode_encode (i := .sidDecode buf) (decide_eq_true h)
  case accepted => rw [sidDecode_accepted (by simp) hle, bytes16_le16, byteAt_cons_zero, byteAt_cons_succ, byteAt_cons_zero]

/-- Settles O9: the bytes are the command's encoding, and the masked byte is answered. -/
theorem hbTwoPackMasks : Obligations.HbTwoPackMasks := fun w t =>
  ⟨decode_encode (i := .hb2Pack w t) rfl, fun s => by rw [exec_hb2Pack, respond_ok_eq_answered, hb2Pack]⟩

/-- Settles O10: the bytes are the command's encoding, and the two masked bytes are answered. -/
theorem hbTwoUnpackSplits : Obligations.HbTwoUnpackSplits := fun hb2 =>
  ⟨decode_encode (i := .hb2Unpack hb2) rfl, fun s => by rw [exec_hb2Unpack, respond_ok_eq_answered, hb2Unpack]⟩

/-- Settles O11: the bytes are the command's encoding, and the operand itself is answered. -/
theorem hbTwoEncodeOneByte : Obligations.HbTwoEncodeOneByte := fun hb2 =>
  ⟨decode_encode (i := .hb2Encode hb2) rfl, fun s => by rw [exec_hb2Encode, respond_ok_eq_answered]⟩

/-- Settles O12: the bytes are the command's encoding; the empty string is too short, and any other begins with its answer. -/
theorem hbTwoDecodeFirstByte : Obligations.HbTwoDecodeFirstByte := by
  refine ⟨fun buf h => ?decoded, hb2Decode_nil, fun a rest s hle => hb2Decode_accepted hle⟩
  case decoded =>
    rw [← encodeBuffer_eq_lengthField h]
    exact decode_encode (i := .hb2Decode buf) (decide_eq_true h)

end Sys2Proof.Machine
end

section
/-! The statuses of each command (40_sessionid_headerbyte2.md R78, 41_header.md R88). -/

namespace Sys2Proof.Machine

open Sys2Proof.Spec

/-- An outcome at `s` that is an answer with one of the statuses listed for the command. -/
def AnswersOwnStatus (i : Instr) (s : State) (o : Host.Outcome State Fault Refusal) : Prop :=
  ∃ (b : Block) (st : Byte) (payload : Bytes), o = .next (s.answer b (st :: payload)) ∧ st ∈ ownStatuses i

namespace AnswersOwnStatus

variable {i : Instr} {s : State} {o o' : Host.Outcome State Fault Refusal}

/-- An answer `OK`, whatever it leaves in the block: every command lists that status. -/
theorem respond_ok (i : Instr) (s : State) (b : Block) (payload : Bytes) :
    AnswersOwnStatus i s (.next (s.answer b (Status.ok.code :: payload))) := by
  refine ⟨b, _, payload, rfl, ?_⟩
  cases i <;> exact List.mem_cons_self

/-- A refusal with a listed status; the list is the command's own, so the default proof looks the code up in it. -/
theorem raise {e : Status} {info : Bytes} (h : e.code ∈ ownStatuses i := by simp [ownStatuses, Status.code]) :
    AnswersOwnStatus i s (raise e info s) :=
  ⟨s.block, _, info, rfl, h⟩

theorem ite {c : Prop} [Decidable c] (h : AnswersOwnStatus i s o) (h' : AnswersOwnStatus i s o') :
    AnswersOwnStatus i s (if c then o else o') := by
  split
  · exact h
  · exact h'

theorem withinCapacity {cap : Nat} {buf : Bytes} (hle : buf.length ≤ cap) (h : AnswersOwnStatus i s o) :
    AnswersOwnStatus i s (withinCapacity cap buf s o) := by
  rwa [withinCapacity_of_le hle]

end AnswersOwnStatus

/-- A command whose operand is within capacity answers one of its own statuses. -/
theorem exec_answersOwnStatus (i : Instr) {s : State} (hcap : withinItsCapacity s.params i) :
    AnswersOwnStatus i s (exec i s) := by
  cases i with
  | sidPack | sidUnpack | sidEncode => exact .respond_ok _ s s.block _
  | hb2Pack | hb2Unpack | hb2Encode => exact .respond_ok _ s s.block _
  | sidDecode | hb2Decode =>
    exact .withinCapacity hcap (.ite .raise (.respond_ok _ s s.block _))
  | hdrBuild =>
    rw [exec_hdrBuild]
    split
    · exact .raise
    · exact .respond_ok _ s (writeHdr _ s).block _
  | hdrDecode =>
    exact .withinCapacity hcap (.ite .raise (.respond_ok _ s (writeHdr _ s).block _))
  | hdrEncode =>
    rw [exec_hdrEncode]
    exact .ite (.respond_ok _ s s.block _) .raise
  | resolveKind =>
    rw [exec_resolveKind]
    refine .ite ?_ .raise
    split
    · exact .raise
    · exact .respond_ok _ s s.block _
  | msgBuild =>
    exact .withinCapacity hcap (.ite (.respond_ok _ s (writeMsg _ _ _ s).block _) .raise)
  | frameEncode =>
    rw [exec_frameEncode]
    exact .ite (.respond_ok _ s s.block _) .raise
  | frameDecode =>
    exact .withinCapacity hcap (.ite .raise (.ite .raise (.respond_ok _ s (writeHdr _ (writeMsg _ _ _ s)).block _)))

/-- Settles O42: every branch of a command's rule behind the capacity check ends with a status of its list. -/
theorem statusesOfEachCommand : Obligations.StatusesOfEachCommand := by
  intro i s hcap
  obtain ⟨b, status, payload, hex, hmem⟩ := exec_answersOwnStatus i hcap
  exact ⟨status, payload, s.answer b (status :: payload), ⟨hex, rfl⟩, hmem⟩

end Sys2Proof.Machine
end

section
/-! The header's two forms (41_header.md R82, R83, R85): taking ten bytes apart and writing them again are inverse. -/

namespace Sys2Proof.Machine

open Sys2Proof.Spec

/-- The fields of a header stand where `hdr_decode` reads them, whatever follows. -/
theorem hdrDecode_hdrBytes_append (h : Header) (rest : Bytes) : hdrDecode (hdrBytes h ++ rest) = h := by
  refine (Header.mk.injEq ..).mpr ⟨?sid, rfl, rfl, rfl, rfl, ?sys⟩
  case sid => exact le16_of_bytes _ 0 _ rfl rfl
  case sys => exact le32_of_bytes _ 6 _ rfl rfl rfl rfl

/-- The first `n` bytes, one by one. -/
theorem take_eq_map_byteAt {b : Bytes} {n : Nat} (h : n ≤ b.length) : b.take n = (List.range n).map (byteAt b) := by
  refine List.ext_getElem (by simp [h]) fun i hi _ => ?_
  have hib : i < b.length := hi.trans_le (List.length_take_le' n b)
  simp [byteAt_eq_getElem b i hib]

/-- The header that ten bytes or more stand for is written as the first ten of them. -/
theorem hdrBytes_hdrDecode {b : Bytes} (h : 10 ≤ b.length) : hdrBytes (hdrDecode b) = b.take 10 := by
  rw [take_eq_map_byteAt h, hdrBytes, hdrDecode, bytes16_le16, bytes32_le32]
  rfl

/-- Settles O21: each field is read where it is written, and each of the first ten bytes belongs to one field. -/
theorem headerRoundTrip : Obligations.HeaderRoundTrip :=
  ⟨fun h => by simpa using hdrDecode_hdrBytes_append h [], fun _ => hdrBytes_hdrDecode⟩

end Sys2Proof.Machine
end

section
/-! The header unit (41_header.md R79 to R86): the outcome of each of its four commands. -/

namespace Sys2Proof.Machine

open Sys2Proof.Spec

/-! The enumeration of kinds in the words of the obligations. -/

theorem MessageKind.map_sType_all : MessageKind.all.map MessageKind.sType = kinds := rfl

theorem MessageKind.mem_all (k : MessageKind) : k ∈ MessageKind.all := by cases k <;> decide

/-- The bytes of `KINDS` are the S-Types of the kinds (R48). -/
theorem mem_kinds_iff {b : Byte} : b ∈ kinds ↔ ∃ k : MessageKind, k.sType = b := by
  simp [← MessageKind.map_sType_all, MessageKind.mem_all]

/-- A byte outside `KINDS` is the S-Type of no kind (R48). -/
theorem MessageKind.ofSType_eq_none {b : Byte} (h : b ∉ kinds) : MessageKind.ofSType b = none := by
  cases hk : MessageKind.ofSType b with
  | none => rfl
  | some k => exact absurd (mem_kinds_iff.mpr ⟨k, MessageKind.sType_of_ofSType hk⟩) h

/-! `HDR_BUILD`, by what its kind is. -/

section Build

variable {sid dir dev : U16} {hb2 w stream fn : Byte} {sys : U32}

/-- A kind of the enumeration: the header of its row is stored (R79). -/
theorem exec_hdrBuild_sType (k : MessageKind) (s : State) :
    exec (.hdrBuild k.sType sid dir dev hb2 w stream fn sys) s =
      .next (answered (headerStored s (hdrBuild k sid dir dev hb2 w stream fn sys)) [0x00]) := by
  rw [exec_hdrBuild, MessageKind.ofSType_sType]
  rfl

/-- A kind outside the enumeration is answered and writes nothing (R79). -/
theorem exec_hdrBuild_unknown {kind : Byte} (h : kind ∉ kinds) (s : State) :
    exec (.hdrBuild kind sid dir dev hb2 w stream fn sys) s = .next (answered s [0x03, kind]) := by
  rw [exec_hdrBuild, MessageKind.ofSType_eq_none h]
  rfl

/-- The rows of the requests, of linktest and of separate (R80). -/
theorem hdrBuild_request {k : MessageKind} (hk : k.sType ∈ ([1, 3, 5, 6, 9] : List Byte)) :
    hdrBuild k sid dir dev hb2 w stream fn sys =
      { sid := 0xFFFF, hb2 := 0, fn := 0, pt := 0, st := k.sType, sys := sys } := by
  cases k with
  | selectReq | deselectReq | linktestReq | linktestRsp | separateReq => rfl
  | data | selectRsp | deselectRsp | rejectReq => exact absurd hk (by decide)

/-- The rows of the two responses (R80). -/
theorem hdrBuild_response {k : MessageKind} (hk : k.sType ∈ ([2, 4] : List Byte)) :
    hdrBuild k sid dir dev hb2 w stream fn sys =
      { sid := sid, hb2 := 0, fn := fn, pt := 0, st := k.sType, sys := sys } := by
  cases k with
  | selectRsp | deselectRsp => rfl
  | data | selectReq | deselectReq | linktestReq | linktestRsp | rejectReq | separateReq => exact absurd hk (by decide)

end Build

/-! `HDR_DECODE`, by the length of its operand. -/

/-- Fewer than ten bytes are always within capacity, and too short (R82). -/
theorem hdrDecode_short {buf : Bytes} (h : buf.length < 10) (s : State) :
    exec (.hdrDecode buf) s = .next (answered s [0x04]) := by
  have hcap : ¬inputMax s.params < buf.length := by rw [inputMax_eq]; omega
  rw [exec_hdrDecode, if_neg hcap, if_pos h, raise_eq_answered, Status.code]

/-- Ten bytes or more within capacity: the header they stand for is stored (R82). -/
theorem hdrDecode_accepted {buf : Bytes} {s : State} (hge : 10 ≤ buf.length) (hle : buf.length ≤ inputMax s.params) :
    exec (.hdrDecode buf) s = .next (answered (headerStored s (hdrDecode buf)) [0x00]) := by
  rw [exec_hdrDecode, if_neg (Nat.not_lt.mpr hle), if_neg (Nat.not_lt.mpr hge), respond_ok_eq_answered]
  rfl

/-! `HDR_ENCODE` and `RESOLVE_KIND`, by what `HDR` holds. -/

theorem hdrEncode_invalid {s : State} (h : s.block.hdrValid = false) : exec .hdrEncode s = .next (answered s [0x82]) := by
  rw [exec_hdrEncode, h, if_neg Bool.false_ne_true, raise_eq_answered, Status.code]

theorem hdrEncode_valid {s : State} (h : s.block.hdrValid = true) :
    exec .hdrEncode s = .next (answered s (0x00 :: headerBytes s.block.hdr)) := by
  rw [exec_hdrEncode, if_pos h, respond_ok_eq_answered, hdrBytes_eq_headerBytes]

theorem resolveKind_invalid {s : State} (h : s.block.hdrValid = false) :
    exec .resolveKind s = .next (answered s [0x82]) := by
  rw [exec_resolveKind, h, if_neg Bool.false_ne_true, raise_eq_answered, Status.code]

/-- An S-Type of the enumeration is answered with `OK` (R84). -/
theorem resolveKind_known {s : State} (hv : s.block.hdrValid = true) (hst : s.block.hdr.st ∈ kinds) :
    exec .resolveKind s = .next (answered s [0x00, s.block.hdr.st]) := by
  obtain ⟨k, hk⟩ := mem_kinds_iff.mp hst
  rw [exec_resolveKind, if_pos hv, ← hk, MessageKind.ofSType_sType]
  rfl

/-- Any other S-Type is answered as it stands (R84). -/
theorem resolveKind_unknown {s : State} (hv : s.block.hdrValid = true) (hst : s.block.hdr.st ∉ kinds) :
    exec .resolveKind s = .next (answered s [0x03, s.block.hdr.st]) := by
  rw [exec_resolveKind, if_pos hv, MessageKind.ofSType_eq_none hst]
  rfl

/-- Settles O22: the header built of a kind has the kind as its S-Type, and `RESOLVE_KIND` answers the S-Type that `HDR` holds. -/
theorem buildAndResolutionAgree : Obligations.BuildAndResolutionAgree := by
  refine ⟨fun kind sid dir dev hb2 w stream fn sys s hkind => ?_, fun _ _ _ _ _ _ _ _ => ⟨rfl, rfl⟩⟩
  obtain ⟨k, rfl⟩ := mem_kinds_iff.mp hkind
  obtain ⟨hpt, hst, -⟩ := hdrBuild_fixed k sid dir dev hb2 w stream fn sys
  refine ⟨_, exec_hdrBuild_sType k s, hst, hpt, ?_⟩
  rw [resolveKind_known rfl (hst.symm ▸ hkind)]
  simp only [answered, headerStored, hst]

/-- Settles O16: the bytes are the command's encoding; each kind's header is that of its row, and a byte that is no kind is refused. -/
theorem hdrBuildFollowsTheDispatchTable : Obligations.HdrBuildFollowsTheDispatchTable := by
  refine fun kind sid dir dev hb2 w stream fn sys =>
    ⟨?decoded, fun s => ⟨?data, fun hkind => ?request, fun hkind => ?response, ?reject, fun h => exec_hdrBuild_unknown h s⟩⟩
  case decoded =>
    simp only [← bytes16_eq_field16, ← bytes32_eq_field32]
    exact decode_encode (i := .hdrBuild kind sid dir dev hb2 w stream fn sys) rfl
  case data =>
    rintro rfl
    exact exec_hdrBuild_sType .data s
  case request =>
    obtain ⟨k, rfl⟩ := mem_kinds_iff.mp ((by decide : ([1, 3, 5, 6, 9] : List Byte) ⊆ kinds) hkind)
    rw [exec_hdrBuild_sType, hdrBuild_request hkind]
  case response =>
    obtain ⟨k, rfl⟩ := mem_kinds_iff.mp ((by decide : ([2, 4] : List Byte) ⊆ kinds) hkind)
    rw [exec_hdrBuild_sType, hdrBuild_response hkind]
  case reject =>
    rintro rfl
    exact exec_hdrBuild_sType .rejectReq s

/-- Settles O17: a kind's row does not take the operands that are not marked for it. -/
theorem hdrBuildIgnoresUnusedOperands : Obligations.HdrBuildIgnoresUnusedOperands := by
  refine fun sid sid' dir dir' dev dev' hb2 hb2' w w' stream stream' fn fn' sys s =>
    ⟨?data, fun kind hkind => ?request, fun kind hkind => ?response, ?reject⟩
  case data => exact exec_hdrBuild_congr (fun _ hk => hdrBuild_data_ignores hk) s
  case request => exact exec_hdrBuild_congr (fun _ hk => hdrBuild_request_ignores (hk ▸ hkind)) s
  case response => exact exec_hdrBuild_congr (fun _ hk => hdrBuild_response_ignores (hk ▸ hkind)) s
  case reject => exact exec_hdrBuild_congr (fun _ hk => hdrBuild_reject_ignores hk) s

/-- Settles O18: the bytes are the command's encoding; ten header bytes and whatever follows are read as that header. -/
theorem hdrDecodeStoresTenBytesUnchecked : Obligations.HdrDecodeStoresTenBytesUnchecked := by
  refine ⟨fun buf h => ?decoded, fun _ s h => hdrDecode_short h s, fun h rest s hle => ?accepted⟩
  case decoded =>
    rw [← encodeBuffer_eq_lengthField h]
    exact decode_encode (i := .hdrDecode buf) (decide_eq_true h)
  case accepted =>
    rw [← hdrBytes_eq_headerBytes] at hle ⊢
    rw [hdrDecode_accepted (by simp) hle, hdrDecode_hdrBytes_append]

/-- Settles O19: the byte is the command's encoding, and `HDR` is answered as its ten bytes once it is valid. -/
theorem hdrEncodeAnswersTenBytes : Obligations.HdrEncodeAnswersTenBytes :=
  ⟨decode_encode (i := .hdrEncode) rfl, fun _ => hdrEncode_invalid, fun _ => hdrEncode_valid⟩

/-- Settles O20: the byte is the command's encoding, and the S-Type that a valid `HDR` holds is known or not. -/
theorem resolveKindAnswersTheSType : Obligations.ResolveKindAnswersTheSType :=
  ⟨decode_encode (i := .resolveKind) rfl, fun _ => resolveKind_invalid, fun _ => resolveKind_known,
    fun _ => resolveKind_unknown⟩

end Sys2Proof.Machine
end

section
/-! The frame unit (42_frame.md R89 to R95): the outcome of each of its three commands. -/

namespace Sys2Proof.Machine

open Sys2Proof.Spec

/-! `MSG_BUILD` within capacity, and `FRAME_ENCODE`, by whether the register they read is valid. -/

theorem msgBuild_invalid {body : Bytes} {s : State} (hle : body.length ≤ s.params.bodyMax.val)
    (hv : s.block.hdrValid = false) : exec (.msgBuild body) s = .next (answered s [0x82]) := by
  rw [exec_msgBuild, if_neg (Nat.not_lt.mpr hle), hv, if_neg Bool.false_ne_true, raise_eq_answered, Status.code]

/-- With a header staged, the message of that header and the operand is stored (R89). -/
theorem msgBuild_valid {body : Bytes} {s : State} (hle : body.length ≤ s.params.bodyMax.val)
    (hv : s.block.hdrValid = true) :
    exec (.msgBuild body) s =
      .next (answered (messageStored s (BitVec.ofNat 32 (10 + body.length)) s.block.hdr body) [0x00]) := by
  rw [exec_msgBuild, if_neg (Nat.not_lt.mpr hle), if_pos hv, respond_ok_eq_answered]
  rfl

theorem frameEncode_invalid {s : State} (hv : s.block.msgValid = false) :
    exec .frameEncode s = .next (answered s [0x82]) := by
  rw [exec_frameEncode, hv, if_neg Bool.false_ne_true, raise_eq_answered, Status.code]

/-! `FRAME_DECODE` of a frame given by its length, header and body. -/

/-- The frame in the words of the obligations (R91). -/
theorem frameBytes_eq_fields (len : U32) (h : Header) (body : Bytes) :
    frameBytes len h body = field32 len ++ headerBytes h ++ body := by
  rw [frameBytes, bytes32_eq_field32, hdrBytes_eq_headerBytes]

/-- A frame begins with its length. -/
@[simp] theorem le32_frameBytes (len : U32) (h : Header) (body : Bytes) : le32 (frameBytes len h body) 0 = len := by
  rw [frameBytes, List.append_assoc, le32_bytes32_append]

/-- Ten bytes from offset 4 on are the frame's header. -/
theorem hdrDecode_frameBytes (len : U32) (h : Header) (body : Bytes) :
    hdrDecode (((frameBytes len h body).drop 4).take 10) = h := by
  have hheader : ((frameBytes len h body).drop 4).take 10 = hdrBytes h ++ [] := rfl
  rw [hheader, hdrDecode_hdrBytes_append]

/-- A frame whose body is within capacity reaches the length check: its three parts are stored, or its length is refused (R93, R95). -/
theorem exec_frameDecode_frameBytes (len : U32) (h : Header) {body : Bytes} {s : State}
    (hle : body.length ≤ s.params.bodyMax.val) :
    exec (.frameDecode (frameBytes len h body)) s =
      if lengthRefused s.params len body then .next (answered s [0x05])
      else .next (answered (headerStored (messageStored s len h body) h) [0x00]) := by
  have hcap : ¬inputMax s.params < (frameBytes len h body).length := by
    rw [inputMax_eq, length_frameBytes]
    omega
  have hshort : ¬(frameBytes len h body).length < 14 := by
    rw [length_frameBytes]
    omega
  rw [exec_frameDecode, if_neg hcap, if_neg hshort, le32_frameBytes, hdrDecode_frameBytes, drop_frameBytes]
  rfl

/-- Settles O27: the bytes are the command's encoding; the two bounds on the buffer come first, and a frame between them is read
as its length, header and body, of which only a strict instance compares the length. -/
theorem frameDecodeStoresMessageAndHeader : Obligations.FrameDecodeStoresMessageAndHeader := by
  refine ⟨fun buf hn => ?decoded, fun buf s hlt => frameDecode_short hlt s,
    fun buf s hgt => withinCapacity_exceeded hgt s _, fun len h body s hle hstrict hne => ?mismatch,
    fun len h body s hle hlen => ?stored⟩
  case decoded =>
    rw [← encodeBuffer_eq_lengthField hn]
    exact decode_encode (i := .frameDecode buf) (decide_eq_true hn)
  case mismatch =>
    rw [← frameBytes_eq_fields, exec_frameDecode_frameBytes len h hle, if_pos (lengthRefused_eq_true.mpr ⟨hstrict, hne⟩)]
  case stored =>
    have haccepted : ¬lengthRefused s.params len body = true := by
      rw [lengthRefused_eq_true]
      exact fun ⟨hstrict, hne⟩ => hne (hlen hstrict)
    rw [← frameBytes_eq_fields, exec_frameDecode_frameBytes len h hle, if_neg haccepted]

/-- Settles O25: the bytes are the command's encoding; capacity is checked before `HDR_VALID`, and within capacity the stored length
does not wrap (`toNat_builtLength`). -/
theorem msgBuildStoresTheMessage : Obligations.MsgBuildStoresTheMessage := by
  refine ⟨fun body hn => ?decoded, fun _ _ => msgBuild_invalid, fun body s hgt => withinCapacity_exceeded hgt s _,
    fun body s hle hv => ⟨_, toNat_builtLength hle, msgBuild_valid hle hv⟩⟩
  case decoded =>
    rw [← encodeBuffer_eq_lengthField hn]
    exact decode_encode (i := .msgBuild body) (decide_eq_true hn)

/-- Settles O26: the byte is the command's encoding, and the frame of a valid message is its three stored parts. -/
theorem frameEncodeEmitsTheStoredMessage : Obligations.FrameEncodeEmitsTheStoredMessage := by
  refine ⟨decode_encode (i := .frameEncode) rfl, fun _ => frameEncode_invalid, fun s hv => ?emitted⟩
  case emitted =>
    rw [← frameBytes_eq_fields]
    exact (answers_frameEncode hv).1

end Sys2Proof.Machine
end

section
/-! Every command is answered once, and an answer that is an error writes no state (60_exceptions.md R98, R110). -/

namespace Sys2Proof.Machine

open Sys2Proof.Spec

/-- The first command among inputs is answered before the others. -/
theorem commandsOf_cons (x : Input) (rest : List Input) : commandsOf (x :: rest) = commandsOf [x] ++ commandsOf rest :=
  List.filterMap_append (l := [x])

/-- One step takes what stands first; it adds one response when that is a command, and none when it is a reset. -/
theorem step_takes_first {s : State} {x : Input} {rest : List Input} (h : s.inputs = x :: rest) :
    ∃ s' added, step s = .next s' ∧ s'.inputs = rest ∧ s'.responses = s.responses ++ added ∧
      added.length = (commandsOf [x]).length := by
  cases x with
  | reset => exact ⟨_, [], step_reset h, rfl, (List.append_nil _).symm, rfl⟩
  | command c =>
    obtain ⟨st, payload, b, hstep, -⟩ := step_command_answers h
    exact ⟨_, [st.code :: payload], hstep, rfl, rfl, rfl⟩

/-- Settles O53, by induction on the inputs: each step takes one of them and answers it if it is a command. -/
theorem everyCommandIsAnswered : Obligations.EveryCommandIsAnswered := by
  intro s
  generalize hin : s.inputs = inputs
  induction inputs generalizing s with
  | nil => exact ⟨s, rfl, hin, rfl, List.prefix_rfl⟩
  | cons x rest ih =>
    obtain ⟨s₁, added, hstep, hrest, hresp, hadded⟩ := step_takes_first hin
    obtain ⟨s', hrun, hdone, hcount, hprefix⟩ := ih s₁ hrest
    refine ⟨s', (core_run_succ hstep _).trans hrun, hdone, ?count, ?earlier⟩
    case count =>
      rw [hcount, hresp, List.length_append, hadded, Nat.add_assoc, ← List.length_append, ← commandsOf_cons]
    case earlier =>
      rw [hresp] at hprefix
      exact (List.prefix_append _ _).trans hprefix

/-- Settles O47: an answer changes the block only when its status is `OK` (`step_command_answers`). -/
theorem errorsWriteNoState : Obligations.ErrorsWriteNoState := by
  intro s c rest hin
  obtain ⟨st, payload, b, hstep, hblock⟩ := step_command_answers hin
  refine ⟨st.code, payload, _, hstep, rfl, rfl, fun hst => ?_⟩
  obtain rfl : b = s.block := hblock (mt Status.code_eq_zero.mpr hst)
  rfl

end Sys2Proof.Machine
end

section
/-! The status table (60_exceptions.md R94, R97, R100): a command's answer with the cause that the table names for it. -/

namespace Sys2Proof.Machine

open Sys2Proof.Spec

/-- `Cause s i st payload`: the status table lets command `i` at `s` answer `st` with that payload (R97, R100). -/
inductive Cause (s : State) : Instr → Status → Bytes → Prop where
  | ok {i : Instr} {payload : Bytes} (h : payload.length = okPayloadLength s.block i) : Cause s i .ok payload
  | tooShort {buf : Bytes} (h : buf.length < 14) : Cause s (.frameDecode buf) .tooShort []
  | unknownKind {kind : Byte} {sid dir dev : U16} {hb2 w stream fn : Byte} {sys : U32} (h : kind ∉ kinds) :
    Cause s (.hdrBuild kind sid dir dev hb2 w stream fn sys) .unknownMessageKind [kind]
  | unknownSType (h : s.block.hdr.st ∉ kinds) : Cause s .resolveKind .unknownMessageKind [s.block.hdr.st]
  | sidSize {buf : Bytes} (h : buf.length < 2) : Cause s (.sidDecode buf) .sizeError []
  | hb2Size {buf : Bytes} (h : buf.length < 1) : Cause s (.hb2Decode buf) .sizeError []
  | hdrSize {buf : Bytes} (h : buf.length < 10) : Cause s (.hdrDecode buf) .sizeError []
  | lengthMismatch {buf : Bytes} (hstrict : s.params.strictLengthCheck = true)
    (hne : littleEndian (buf.take 4) ≠ 10 + (buf.drop 14).length) : Cause s (.frameDecode buf) .lengthMismatch []
  | hdrUnwritten {i : Instr} (hi : readsHdr i = true) (hv : s.block.hdrValid = false) : Cause s i .notInitialised []
  | msgUnwritten (hv : s.block.msgValid = false) : Cause s .frameEncode .notInitialised []
  | capacityExceeded {i : Instr} (h : ¬withinItsCapacity s.params i) : Cause s i .capacityExceeded []

/-- An outcome at `s` that is an answer with a cause of the table. -/
def AnswersWithCause (i : Instr) (s : State) (o : Host.Outcome State Fault Refusal) : Prop :=
  ∃ (st : Status) (payload : Bytes) (b : Block), o = .next (s.answer b (st.code :: payload)) ∧ Cause s i st payload

namespace AnswersWithCause

variable {i : Instr} {s : State}

theorem raise {e : Status} {info : Bytes} (h : Cause s i e info) : AnswersWithCause i s (raise e info s) :=
  ⟨e, info, s.block, rfl, h⟩

/-- An answer `OK`, whatever it leaves in the block. -/
theorem respond_ok (b : Block) {payload : Bytes} (h : payload.length = okPayloadLength s.block i) :
    AnswersWithCause i s (.next (s.answer b (Status.ok.code :: payload))) :=
  ⟨.ok, payload, b, rfl, .ok h⟩

end AnswersWithCause

/-- A byte without a kind is outside `KINDS` (R48). -/
theorem MessageKind.not_mem_kinds {b : Byte} (h : MessageKind.ofSType b = none) : b ∉ kinds := by
  intro hb
  obtain ⟨k, rfl⟩ := mem_kinds_iff.mp hb
  rw [MessageKind.ofSType_sType] at h
  cases h

/-- Every command answers, with a cause of the table. -/
theorem exec_answersWithCause (i : Instr) (s : State) : AnswersWithCause i s (exec i s) := by
  cases i with
  | sidPack | sidUnpack | sidEncode => exact .respond_ok s.block rfl
  | hb2Pack | hb2Unpack | hb2Encode => exact .respond_ok s.block rfl
  | sidDecode buf =>
    rw [exec_sidDecode]
    split_ifs with hcap hshort
    · exact .raise (.capacityExceeded (Nat.not_le.mpr hcap))
    · exact .raise (.sidSize hshort)
    · exact .respond_ok s.block rfl
  | hb2Decode buf =>
    rw [exec_hb2Decode]
    split_ifs with hcap hshort
    · exact .raise (.capacityExceeded (Nat.not_le.mpr hcap))
    · exact .raise (.hb2Size hshort)
    · exact .respond_ok s.block rfl
  | hdrBuild =>
    rw [exec_hdrBuild]
    split
    next hk => exact .raise (.unknownKind (MessageKind.not_mem_kinds hk))
    · exact .respond_ok (writeHdr _ s).block rfl
  | hdrDecode buf =>
    rw [exec_hdrDecode]
    split_ifs with hcap hshort
    · exact .raise (.capacityExceeded (Nat.not_le.mpr hcap))
    · exact .raise (.hdrSize hshort)
    · exact .respond_ok (writeHdr _ s).block rfl
  | hdrEncode =>
    rw [exec_hdrEncode]
    split_ifs with hv
    · exact .respond_ok s.block (length_hdrBytes _)
    · exact .raise (.hdrUnwritten rfl (Bool.eq_false_iff.mpr hv))
  | resolveKind =>
    rw [exec_resolveKind]
    split_ifs with hv
    · split
      next hk => exact .raise (.unknownSType (MessageKind.not_mem_kinds hk))
      · exact .respond_ok s.block rfl
    · exact .raise (.hdrUnwritten rfl (Bool.eq_false_iff.mpr hv))
  | msgBuild body =>
    rw [exec_msgBuild]
    split_ifs with hcap hv
    · exact .raise (.capacityExceeded (Nat.not_le.mpr hcap))
    · exact .respond_ok (writeMsg _ _ _ s).block rfl
    · exact .raise (.hdrUnwritten rfl (Bool.eq_false_iff.mpr hv))
  | frameEncode =>
    rw [exec_frameEncode]
    split_ifs with hv
    · exact .respond_ok s.block (length_frameBytes _ _ _)
    · exact .raise (.msgUnwritten (Bool.eq_false_iff.mpr hv))
  | frameDecode buf =>
    rw [exec_frameDecode]
    split_ifs with hcap hshort hlen
    · exact .raise (.capacityExceeded (Nat.not_le.mpr hcap))
    · exact .raise (.tooShort hshort)
    · rw [lengthRefused_eq_true, toNat_le32_zero buf (by omega)] at hlen
      obtain ⟨hstrict, hne⟩ := hlen
      exact .raise (.lengthMismatch hstrict hne)
    · exact .respond_ok (writeHdr _ (writeMsg _ _ _ s)).block rfl

/-! What the table says of each status, read off the cause. -/

namespace Cause

variable {s : State} {i : Instr} {st : Status} {payload : Bytes}

theorem code_mem (h : Cause s i st payload) : st.code ∈ ([0x00, 0x01, 0x03, 0x04, 0x05, 0x82, 0x83] : List Byte) := by
  cases h <;> decide

theorem of_tooShort (h : Cause s i st payload) (hst : st.code = 0x01) : ∃ buf, i = .frameDecode buf ∧ buf.length < 14 := by
  cases h with
  | tooShort hshort => exact ⟨_, rfl, hshort⟩
  | _ => exact absurd hst (by decide)

theorem of_unknownMessageKind (h : Cause s i st payload) (hst : st.code = 0x03) :
    (∃ kind sid dir dev hb2 w stream fn sys,
        i = .hdrBuild kind sid dir dev hb2 w stream fn sys ∧ kind ∉ kinds ∧ payload = [kind]) ∨
      (i = .resolveKind ∧ s.block.hdr.st ∉ kinds ∧ payload = [s.block.hdr.st]) := by
  cases h with
  | unknownKind hk => exact .inl ⟨_, _, _, _, _, _, _, _, _, rfl, hk, rfl⟩
  | unknownSType hk => exact .inr ⟨rfl, hk, rfl⟩
  | _ => exact absurd hst (by decide)

theorem of_sizeError (h : Cause s i st payload) (hst : st.code = 0x04) :
    ∃ buf, (i = .sidDecode buf ∧ buf.length < 2) ∨ (i = .hb2Decode buf ∧ buf.length < 1) ∨
      (i = .hdrDecode buf ∧ buf.length < 10) := by
  cases h with
  | sidSize hshort => exact ⟨_, .inl ⟨rfl, hshort⟩⟩
  | hb2Size hshort => exact ⟨_, .inr (.inl ⟨rfl, hshort⟩)⟩
  | hdrSize hshort => exact ⟨_, .inr (.inr ⟨rfl, hshort⟩)⟩
  | _ => exact absurd hst (by decide)

theorem of_lengthMismatch (h : Cause s i st payload) (hst : st.code = 0x05) :
    s.params.strictLengthCheck = true ∧
      ∃ buf, i = .frameDecode buf ∧ littleEndian (buf.take 4) ≠ 10 + (buf.drop 14).length := by
  cases h with
  | lengthMismatch hstrict hne => exact ⟨hstrict, _, rfl, hne⟩
  | _ => exact absurd hst (by decide)

theorem of_notInitialised (h : Cause s i st payload) (hst : st.code = 0x82) :
    ((i = .hdrEncode ∨ i = .resolveKind ∨ ∃ body, i = .msgBuild body) ∧ s.block.hdrValid = false) ∨
      (i = .frameEncode ∧ s.block.msgValid = false) := by
  cases h with
  | hdrUnwritten hi hv =>
    refine .inl ⟨?_, hv⟩
    cases i with
    | hdrEncode => exact .inl rfl
    | resolveKind => exact .inr (.inl rfl)
    | msgBuild body => exact .inr (.inr ⟨body, rfl⟩)
    | _ => cases hi
  | msgUnwritten hv => exact .inr ⟨rfl, hv⟩
  | _ => exact absurd hst (by decide)

theorem of_capacityExceeded (h : Cause s i st payload) (hst : st.code = 0x83) : ¬withinItsCapacity s.params i := by
  cases h with
  | capacityExceeded hcap => exact hcap
  | _ => exact absurd hst (by decide)

theorem length_of_ok (h : Cause s i st payload) (hst : st.code = 0x00) :
    payload.length = okPayloadLength s.block i := by
  cases h with
  | ok hlen => exact hlen
  | _ => exact absurd hst (by decide)

/-- Only `OK` and `UNKNOWN_MESSAGE_KIND` carry a payload (R100). -/
theorem payload_eq_nil (h : Cause s i st payload) (hok : st.code ≠ 0x00) (hkind : st.code ≠ 0x03) : payload = [] := by
  cases h with
  | ok => exact absurd rfl hok
  | unknownKind | unknownSType => exact absurd rfl hkind
  | _ => rfl

end Cause

/-! What the decoder's two verdicts say of a transaction. -/

/-- A first byte outside both lists is no opcode's. -/
theorem not_mem_formats_iff {op : Byte} :
    (op ∉ fixedFormats.map Prod.fst ∧ op ∉ formatV) ↔ ∀ o : Opcode, o.byte ≠ op := by
  rw [← not_or, mem_formats_iff, not_exists]

/-- A transaction that begins with an opcode and has the length of its format is accepted. -/
theorem decode_right_length {o : Opcode} {t : Bytes} (h : lengthMatches o.byte (o.byte :: t)) :
    decode (o.byte :: t) = .instr (o.operands (o.byte :: t)) := by
  rw [decode_opcode, if_pos ((lengthMatches_iff o t).mp h)]

/-- A transaction of its format's length begins with an opcode, and the decoder accepts it. -/
theorem decode_of_lengthMatches {op : Byte} {t : Bytes} (h : lengthMatches op (op :: t)) :
    ∃ o : Opcode, o.byte = op ∧ decode (op :: t) = .instr (o.operands (op :: t)) := by
  have hop : op ∈ fixedFormats.map Prod.fst ∨ op ∈ formatV := h.imp (List.mem_map_of_mem (f := Prod.fst)) And.left
  obtain ⟨o, rfl⟩ := mem_formats_iff.mp hop
  exact ⟨o, rfl, decode_right_length h⟩

/-- A rejected transaction begins with no opcode, or has not the length of its format (R57, R58). -/
theorem decode_rejected_cases {c : Bytes} {e : DecodeError} (h : decode c = .rejected e) :
    (e = .illegalOpcode ∧ ∃ op t, c = op :: t ∧ ∀ o : Opcode, o.byte ≠ op) ∨
      (e = .malformedCommand ∧ ∀ op t, c = op :: t → ¬lengthMatches op c) := by
  have hlen : ∀ op t, c = op :: t → ¬lengthMatches op c := by
    rintro op t rfl hmatch
    obtain ⟨o, -, hd⟩ := decode_of_lengthMatches hmatch
    rw [hd] at h
    cases h
  cases e with
  | malformedCommand => exact .inr ⟨rfl, hlen⟩
  | illegalOpcode =>
    cases c with
    | nil => cases h
    | cons op t =>
      refine .inl ⟨rfl, op, t, rfl, ?_⟩
      rintro o rfl
      rw [decode_wrong_length (hlen _ t rfl)] at h
      cases h

/-- Settles O41: a command answers with a cause of the table (`exec_answersWithCause`), and the decoder's two verdicts are the causes
of the other two statuses. -/
theorem statusTable : Obligations.StatusTable := by
  refine ⟨fun i s => ?command, fun s c e rest hin hd => ?rejected⟩
  case command =>
    obtain ⟨st, payload, b, hex, hcause⟩ := exec_answersWithCause i s
    exact ⟨st.code, payload, _, ⟨hex, rfl⟩, hcause.code_mem, hcause.of_tooShort, hcause.of_unknownMessageKind,
      hcause.of_sizeError, hcause.of_lengthMismatch, hcause.of_notInitialised, hcause.of_capacityExceeded,
      hcause.length_of_ok, hcause.payload_eq_nil⟩
  case rejected =>
    obtain ⟨rfl, op, t, hc, hop⟩ | ⟨rfl, hlen⟩ := decode_rejected_cases hd
    · obtain ⟨hfixed, hv⟩ := not_mem_formats_iff.mpr hop
      exact .inl ⟨op, t, hc, hfixed, hv, step_rejected_answered hin hd⟩
    · exact .inr ⟨hlen, step_rejected_answered hin hd⟩

end Sys2Proof.Machine
end

section
/-! The priority list of the statuses (60_exceptions.md R99): the decoder makes the checks of its first levels, and each command those of
the others, in the list's order. -/

namespace Sys2Proof.Machine

open Sys2Proof.Spec

/-- Levels 4 to 6 of the priority list, which the command itself checks: capacity, the register it reads, its own error. -/
def commandStatus (p : Params) (b : Block) (op : Byte) (c : Bytes) : Byte :=
  if op ∈ formatV ∧ capacityOf p op < (c.drop 5).length then 0x83
  else if (op ∈ ([0x12, 0x13, 0x20] : List Byte) ∧ b.hdrValid = false) ∨ (op = 0x21 ∧ b.msgValid = false) then 0x82
  else ownStatus p b op c

section Levels

variable (p : Params) (b : Block) (c : Bytes)

/-! The first levels are the decoder's. -/

theorem statusByPriority_illegal {op : Byte} (h : ∀ o : Opcode, o.byte ≠ op) (t : Bytes) :
    statusByPriority p b (op :: t) = 0x80 :=
  if_pos (not_mem_formats_iff.mpr h)

theorem statusByPriority_opcode (o : Opcode) (t : Bytes) :
    statusByPriority p b (o.byte :: t) =
      if lengthMatches o.byte (o.byte :: t) then commandStatus p b o.byte (o.byte :: t) else 0x81 :=
  (if_neg fun h => not_mem_formats_iff.mp h o rfl).trans (ite_not ..)

/-! The other levels for each opcode, with those left out that it cannot meet. -/

theorem commandStatus_ok {o : Opcode}
    (h : o ∈ [Opcode.sidPack, .sidUnpack, .sidEncode, .hb2Pack, .hb2Unpack, .hb2Encode]) :
    commandStatus p b o.byte c = Status.ok.code := by
  simp only [List.mem_cons, List.not_mem_nil, or_false] at h
  obtain rfl | rfl | rfl | rfl | rfl | rfl := h <;>
    simp [commandStatus, ownStatus, formatV, Opcode.byte, Status.code]

theorem commandStatus_sized {o : Opcode} {n : Nat}
    (h : (o, n) ∈ [(Opcode.sidDecode, 2), (.hb2Decode, 1), (.hdrDecode, 10)]) :
    commandStatus p b o.byte c =
      if inputMax p < (c.drop 5).length then Status.capacityExceeded.code
      else if (c.drop 5).length < n then Status.sizeError.code else Status.ok.code := by
  simp only [List.mem_cons, Prod.mk.injEq, List.not_mem_nil, or_false] at h
  obtain ⟨rfl, rfl⟩ | ⟨rfl, rfl⟩ | ⟨rfl, rfl⟩ := h <;>
    simp [commandStatus, ownStatus, formatV, capacityOf, inputMax, Opcode.byte, Status.code]

theorem commandStatus_hdrBuild :
    commandStatus p b Opcode.hdrBuild.byte c =
      if byteAt c 1 ∈ kinds then Status.ok.code else Status.unknownMessageKind.code := by
  simp [commandStatus, ownStatus, formatV, byteAt, Opcode.byte, Status.code]

theorem commandStatus_hdrEncode :
    commandStatus p b Opcode.hdrEncode.byte c =
      if b.hdrValid then Status.ok.code else Status.notInitialised.code := by
  cases hv : b.hdrValid <;> simp [commandStatus, ownStatus, formatV, Opcode.byte, Status.code, hv]

theorem commandStatus_resolveKind :
    commandStatus p b Opcode.resolveKind.byte c =
      if b.hdrValid then if b.hdr.st ∈ kinds then Status.ok.code else Status.unknownMessageKind.code
      else Status.notInitialised.code := by
  cases hv : b.hdrValid <;> simp [commandStatus, ownStatus, formatV, Opcode.byte, Status.code, hv]

theorem commandStatus_msgBuild :
    commandStatus p b Opcode.msgBuild.byte c =
      if p.bodyMax.val < (c.drop 5).length then Status.capacityExceeded.code
      else if b.hdrValid then Status.ok.code else Status.notInitialised.code := by
  cases hv : b.hdrValid <;> simp [commandStatus, ownStatus, formatV, capacityOf, Opcode.byte, Status.code, hv]

theorem commandStatus_frameEncode :
    commandStatus p b Opcode.frameEncode.byte c =
      if b.msgValid then Status.ok.code else Status.notInitialised.code := by
  cases hv : b.msgValid <;> simp [commandStatus, ownStatus, formatV, Opcode.byte, Status.code, hv]

/-- Behind the length of the least frame, the declared length is compared as `lengthRefused` compares it (R95). -/
theorem ownStatus_frameDecode :
    ownStatus p b Opcode.frameDecode.byte c =
      if (c.drop 5).length < 14 then Status.tooShort.code
      else if lengthRefused p (le32 (c.drop 5) 0) ((c.drop 5).drop 14) then Status.lengthMismatch.code
      else Status.ok.code := by
  refine ite_congr rfl (fun _ => rfl) fun hge => ?_
  simp only [lengthRefused_eq_true, toNat_le32_zero (c.drop 5) (by omega), List.length_drop (i := 14)]
  rfl

theorem commandStatus_frameDecode :
    commandStatus p b Opcode.frameDecode.byte c =
      if inputMax p < (c.drop 5).length then Status.capacityExceeded.code
      else if (c.drop 5).length < 14 then Status.tooShort.code
      else if lengthRefused p (le32 (c.drop 5) 0) ((c.drop 5).drop 14) then Status.lengthMismatch.code
      else Status.ok.code := by
  rw [← ownStatus_frameDecode p b c]
  simp [commandStatus, formatV, capacityOf, inputMax, Opcode.byte, Status.code]

end Levels

/-- An outcome at `s` that is one response with the given status. -/
def HasStatus (s : State) (st : Byte) (o : Host.Outcome State Fault Refusal) : Prop :=
  ∃ payload s', o = .next s' ∧ s'.responses = s.responses ++ [st :: payload]

namespace HasStatus

variable {s : State} {st st' : Byte} {o o' : Host.Outcome State Fault Refusal}

theorem of_eq {t : State} {payload : Bytes} (h : o = .next t) (ht : t.responses = s.responses ++ [st :: payload]) :
    HasStatus s st o := ⟨payload, t, h, ht⟩

/-- A response given behind register writes, which leave the earlier responses as they were. -/
theorem respond {e : Status} {payload : Bytes} {t : State} (h : t.responses = s.responses := by rfl) :
    HasStatus s e.code (respond e payload t) :=
  ⟨payload, _, respond_eq e payload t, by rw [h]⟩

theorem raise {e : Status} {info : Bytes} : HasStatus s e.code (raise e info s) := respond

theorem ite {q : Prop} [Decidable q] (h : HasStatus s st o) (h' : HasStatus s st' o') :
    HasStatus s (if q then st else st') (if q then o else o') := by
  split
  · exact h
  · exact h'

end HasStatus

/-- A command of the right length makes the checks of the list's other levels in the list's order. -/
theorem exec_operands_hasStatus (o : Opcode) (c : Bytes) (s : State) :
    HasStatus s (commandStatus s.params s.block o.byte c) (exec (o.operands c) s) := by
  cases o with
  | sidPack | sidUnpack | sidEncode | hb2Pack | hb2Unpack | hb2Encode =>
    rw [commandStatus_ok _ _ _ (by decide)]
    exact .respond
  | sidDecode =>
    rw [commandStatus_sized (n := 2) _ _ _ (by decide)]
    exact .ite .raise (.ite .raise .respond)
  | hb2Decode =>
    rw [commandStatus_sized (n := 1) _ _ _ (by decide)]
    exact .ite .raise (.ite .raise .respond)
  | hdrBuild =>
    rw [commandStatus_hdrBuild]
    split_ifs with hkind
    · obtain ⟨k, hk⟩ := mem_kinds_iff.mp hkind
      rw [Opcode.operands, ← hk]
      exact .of_eq (exec_hdrBuild_sType k s) rfl
    · exact .of_eq (exec_hdrBuild_unknown hkind s) rfl
  | hdrDecode =>
    rw [commandStatus_sized (n := 10) _ _ _ (by decide)]
    exact .ite .raise (.ite .raise .respond)
  | hdrEncode =>
    rw [commandStatus_hdrEncode]
    exact .ite .respond .raise
  | resolveKind =>
    rw [commandStatus_resolveKind]
    split_ifs with hv hst
    · exact .of_eq (resolveKind_known hv hst) rfl
    · exact .of_eq (resolveKind_unknown hv hst) rfl
    · exact .of_eq (resolveKind_invalid (Bool.eq_false_iff.mpr hv)) rfl
  | msgBuild =>
    rw [commandStatus_msgBuild]
    exact .ite .raise (.ite .respond .raise)
  | frameEncode =>
    rw [commandStatus_frameEncode]
    exact .ite .respond .raise
  | frameDecode =>
    rw [commandStatus_frameDecode]
    exact .ite .raise (.ite .raise (.ite .raise .respond))

/-- Settles O46: the decoder goes down the first levels of the list, and the command it accepts down the others. -/
theorem statusIsTheFirstOfThePriorityList : Obligations.StatusIsTheFirstOfThePriorityList := by
  intro s c rest hin
  show HasStatus s _ (step s)
  cases c with
  | nil => exact .of_eq (step_rejected_answered hin rfl) rfl
  | cons op t =>
    by_cases hop : ∀ o : Opcode, o.byte ≠ op
    · rw [statusByPriority_illegal _ _ hop]
      exact .of_eq (step_rejected_answered hin (decode_illegal hop t)) rfl
    · obtain ⟨o, rfl⟩ : ∃ o : Opcode, o.byte = op := by simpa using hop
      rw [statusByPriority_opcode]
      split_ifs with hlen
      · rw [step_instr hin (decode_right_length hlen)]
        exact exec_operands_hasStatus o (o.byte :: t) (acceptInput rest s)
      · exact .of_eq (step_rejected_answered hin (decode_wrong_length hlen)) rfl

end Sys2Proof.Machine
end

section
/-! What a register holds after a later header write (70_reset_and_hazards.md R116) and after `FRAME_DECODE` (R118). -/

namespace Sys2Proof.Machine

open Sys2Proof.Spec

/-- Settles O32: `MSG_BUILD` copies `HDR` into the message, and a header write that comes later leaves the message as it is. -/
theorem headerSnapshot : Obligations.HeaderSnapshot := by
  intro body s s₁ s₂ i hbuild hi hex
  have e := effect_of_answers hbuild
  obtain ⟨hvalid, hcopy⟩ := e.message_of_ok rfl rfl
  have hkept : s₁.block.hdr = s.block.hdr := (headerOf_eq_iff.mp (e.headerOf_eq rfl)).2
  have hwrites : mayWriteMsg i = false := by
    obtain ⟨_, _, _, _, _, _, _, _, _, rfl⟩ | ⟨_, rfl⟩ := hi
    · rfl
    · rfl
  obtain ⟨_, -, e'⟩ := effect_of_exec hex
  obtain ⟨hvalid', hlen', hhdr', hbody'⟩ := messageOf_eq_iff.mp (e'.messageOf_eq hwrites)
  have hhdr : s₂.block.msgHdr = s.block.hdr := hhdr'.trans (hcopy.trans hkept)
  have hbody : s₂.block.msgBody = body := hbody'.trans (e.msgBody_of_msgBuild rfl)
  refine ⟨s₂.block.msgLen, ?length, ?frame⟩
  case length => rw [hlen', e.msgLen_of_msgBuild rfl, e.msgBody_of_msgBuild rfl]
  case frame =>
    rw [← frameBytes_eq_fields, ← hhdr, ← hbody]
    exact (answers_frameEncode (hvalid'.trans hvalid)).1

/-- A `FRAME_DECODE` that answers `OK` leaves a block made of its operand alone (R93). -/
theorem Effect.block_of_frameDecode {p : Params} {b b' : Block} {buf r : Bytes} (e : Effect p b (.frameDecode buf) b' r)
    (hr : r = [0x00]) :
    b' = { hdr := Machine.hdrDecode ((buf.drop 4).take 10), hdrValid := true, msgLen := le32 buf 0,
           msgHdr := Machine.hdrDecode ((buf.drop 4).take 10), msgBody := buf.drop 14, msgValid := true } := by
  cases e with
  | refused _ _ _ hst => exact absurd hr (Status.refusal_ne_ok hst)
  | readOnly _ _ hh => cases hh
  | frameDecode => rfl

/-- Settles O33: `FRAME_DECODE` reads no register, so it answers `OK` from the other state too (`exec_alike`), and the block it
leaves is made of its operand alone. -/
theorem frameDecodeReplacesBothRegisters : Obligations.FrameDecodeReplacesBothRegisters := by
  intro buf s t s' hp h
  have e := effect_of_answers h
  obtain ⟨hmsgValid, hcopy⟩ := e.message_of_ok rfl rfl
  obtain ⟨hex, hresp⟩ := h
  obtain ⟨b, b', r, hs, ht, -, -⟩ := exec_alike (.frameDecode buf) hp (fun hi => nomatch hi) (fun hi => nomatch hi)
  obtain rfl : s' = s.answer b r := Host.Outcome.next.inj (hex.symm.trans hs)
  obtain rfl : r = [0x00] := by simpa using hresp
  have e' : Effect s.params t.block (.frameDecode buf) b' [0x00] := hp ▸ effect_of_answers ⟨ht, rfl⟩
  have hsame : b' = b := (e'.block_of_frameDecode rfl).trans (e.block_of_frameDecode rfl).symm
  exact ⟨_, ht, hsame, hcopy.symm, e.hdrValid_of_ok rfl rfl, hmsgValid⟩

end Sys2Proof.Machine
end

section
/-! `NOT_INITIALISED` (70_reset_and_hazards.md R113). -/

namespace Sys2Proof.Machine

open Sys2Proof.Spec

/-- The table's two causes of `NOT_INITIALISED`: the register that the command reads is unwritten. -/
theorem Cause.unwritten {s : State} {i : Instr} {st : Status} {payload : Bytes} (h : Cause s i st payload)
    (hst : st.code = 0x82) :
    (readsHdr i = true ∧ s.block.hdrValid = false) ∨ (i = .frameEncode ∧ s.block.msgValid = false) := by
  cases h with
  | hdrUnwritten hi hv => exact .inl ⟨hi, hv⟩
  | msgUnwritten hv => exact .inr ⟨rfl, hv⟩
  | _ => exact absurd hst (by decide)

/-- Settles O49: the answer has a cause of the table, and a reader of an unwritten register has no other answer. -/
theorem notInitialisedExactlyBeforeTheFirstWrite : Obligations.NotInitialisedExactlyBeforeTheFirstWrite := by
  intro i s hcap
  obtain ⟨st, payload, b, hex, hcause⟩ := exec_answersWithCause i s
  refine ⟨st.code, payload, _, ⟨hex, rfl⟩, hcause.unwritten, ?_⟩
  rintro (⟨hi, hv⟩ | ⟨rfl, hv⟩)
  · obtain ⟨b', st', payload', hex', hst'⟩ := exec_readsHdr_status hi hcap
    obtain ⟨-, hanswer⟩ := State.answer_inj (hex.symm.trans hex')
    rw [(List.cons.inj hanswer).1, hst'.mpr hv]
  · obtain ⟨-, hanswer⟩ := State.answer_inj (b' := s.block) (hex.symm.trans (frameEncode_invalid hv))
    exact (List.cons.inj hanswer).1

end Sys2Proof.Machine
end

section
/-! Flag operands (70_reset_and_hazards.md R120): a bit that only the first of two masks keeps comes from the first word. -/

namespace Sys2Proof.Machine

open Sys2Proof.Spec

/-- Joined parts under two masks, at a bit that only the first mask keeps. -/
theorem getLsbD_join {n : Nat} {m m' : BitVec n} {k : Nat} (hm : m.getLsbD k = true) (hm' : m'.getLsbD k = false)
    (x y : BitVec n) : ((x &&& m) ||| (y &&& m')).getLsbD k = x.getLsbD k := by
  rw [BitVec.getLsbD_or, BitVec.getLsbD_and, BitVec.getLsbD_and, hm, hm', Bool.and_true, Bool.and_false, Bool.or_false]

/-- The direction of a packed SessionID is bit 15 of `dir` (R45). -/
theorem sidPack_direction (dir dev : U16) : (sidPack dir dev).getLsbD 15 = dir.getLsbD 15 :=
  getLsbD_join (by decide) (by decide) dir dev

/-- The W-Bit of a packed HeaderByte2 is bit 7 of `w` (R46). -/
theorem hb2Pack_wBit (w t : Byte) : (hb2Pack w t).getLsbD 7 = w.getLsbD 7 := getLsbD_join (by decide) (by decide) w t

/-- Settles O14: the two packs keep the top bit of their flag, and the data row of `HDR_BUILD` packs both fields. -/
theorem flagOperandsCarryTheTopBit : Obligations.FlagOperandsCarryTheTopBit := by
  refine ⟨fun dir dev s => ⟨_, (sidPackMasks dir dev).2 s, sidPack_direction dir dev⟩,
    fun w t s => ⟨_, (hbTwoPackMasks w t).2 s, hb2Pack_wBit w t⟩, fun sid dir dev hb2 w stream fn sys s => ?build⟩
  case build => exact ⟨_, exec_hdrBuild_sType .data s, sidPack_direction dir dev, hb2Pack_wBit w stream⟩

end Sys2Proof.Machine
end

section
/-! The reset input (70_reset_and_hazards.md R111, R112). -/

namespace Sys2Proof.Machine

/-- Settles O52: a reset is one step of its own (`step_reset`), before which a command that stands in front has been answered
(`step_command_answers`). -/
theorem resetInputClearsOnlyTheBlock : Obligations.ResetInputClearsOnlyTheBlock := by
  refine ⟨fun s rest hin => ?first, fun s c rest hin => ?behind, fun s s' h => (step_block_cases h).1⟩
  case first => exact ⟨_, step_reset hin, Block.reset_hdrValid, Block.reset_msgValid, rfl, rfl, rfl⟩
  case behind =>
    obtain ⟨st, payload, b, hstep, -⟩ := step_command_answers hin
    exact ⟨_, _, _, hstep, rfl, rfl, step_reset rfl, rfl, Block.reset_hdrValid, Block.reset_msgValid⟩

end Sys2Proof.Machine
end

section
/-! The two round trips of a frame (42_frame.md R96). -/

namespace Sys2Proof.Machine

open Sys2Proof.Spec

/-- A length field is written as the four bytes it was read from. -/
theorem bytes32_le32_zero {b : Bytes} (h : 4 ≤ b.length) : bytes32 (le32 b 0) = b.take 4 := by
  rw [bytes32_le32, take_eq_map_byteAt h]
  rfl

/-- A frame is answered of a valid message only, and is the frame of the stored length, header and body. -/
theorem frame_of_answers {s s' : State} {f : Bytes} (h : answers .frameEncode s 0x00 f s') :
    s.block.msgValid = true ∧ f = frameBytes s.block.msgLen s.block.msgHdr s.block.msgBody := by
  obtain ⟨hex, hresp⟩ := h
  cases hv : s.block.msgValid with
  | false =>
    rw [frameEncode_invalid hv] at hex
    cases hex
    simp [answered] at hresp
  | true =>
    rw [(answers_frameEncode hv).1] at hex
    cases hex
    exact ⟨rfl, by simpa [answered] using hresp.symm⟩

/-- Settles O30: the emitted frame carries the stored length, which counts its body and so is not refused. -/
theorem messageRoundTrip : Obligations.MessageRoundTrip := by
  intro s t f hcap hlen hp hf
  obtain ⟨hv, rfl⟩ := frame_of_answers hf
  have hle : s.block.msgBody.length ≤ t.params.bodyMax.val := by rwa [← hp]
  have haccepted : ¬lengthRefused t.params s.block.msgLen s.block.msgBody = true := by
    rw [lengthRefused_eq_true]
    exact fun ⟨_, hne⟩ => hne (hlen hv)
  have hex := exec_frameDecode_frameBytes s.block.msgLen s.block.msgHdr hle
  rw [if_neg haccepted] at hex
  exact ⟨_, ⟨hex, rfl⟩, messageOf_eq_iff.mpr ⟨hv.symm, rfl, rfl, rfl⟩⟩

/-- Fourteen bytes or more, taken apart as a frame and written again. -/
theorem frameBytes_of_parts {b : Bytes} (h : 14 ≤ b.length) :
    frameBytes (le32 b 0) (hdrDecode ((b.drop 4).take 10)) (b.drop 14) = b := by
  have hhdr : hdrBytes (hdrDecode ((b.drop 4).take 10)) = (b.drop 4).take 10 := by
    rw [hdrBytes_hdrDecode (by simp; omega), List.take_take, Nat.min_self]
  have hbody : b.drop 14 = (b.drop 4).drop 10 := by rw [List.drop_drop]
  rw [frameBytes, bytes32_le32_zero (by omega), hhdr, hbody, List.append_assoc, List.take_append_drop,
    List.take_append_drop]

/-- Settles O31: a lenient block accepts every frame within capacity, and the parts it stores make up the frame. -/
theorem lenientFrameRoundTrip : Obligations.LenientFrameRoundTrip := by
  intro b s hlenient hge hle
  have haccepted : lengthRefused s.params (le32 b 0) (b.drop 14) = false := by rw [lengthRefused, hlenient, Bool.false_and]
  refine ⟨_, ⟨frameDecode_accepted hge hle haccepted, rfl⟩, ?_⟩
  have hframe := frameBytes_of_parts hge
  generalize le32 b 0 = len, hdrDecode ((b.drop 4).take 10) = h, b.drop 14 = body at hframe ⊢
  rw [← hframe]
  exact answers_frameEncode rfl

end Sys2Proof.Machine
end

section
/-! Encoding undoes decoding (30_encoding.md R52 to R55): every byte behind the opcode belongs to one operand, or to the field `n`. -/

namespace Sys2Proof

open Sys2Proof.Machine

/-- Settles O57: the encoding of a well-formed instruction is accepted, and its operands stand where they are read. -/
theorem decodeOfEncodeIsTheInstruction : Obligations.DecodeOfEncodeIsTheInstruction := fun _ => decode_encode

/-- A byte string of known length, byte by byte. -/
theorem map_byteAt_range {t : Bytes} {n : Nat} (h : t.length = n) : (List.range n).map (byteAt t) = t := by
  rw [← take_eq_map_byteAt h.ge, List.take_of_length_le h.le]

/-- A length field that counts the bytes behind it is rewritten, with them, as it was read. -/
theorem encodeBuffer_drop {t : Bytes} (h : t.length = 4 + (le32 t 0).toNat) : encodeBuffer (t.drop 4) = t := by
  have hcount : BitVec.ofNat 32 (t.drop 4).length = le32 t 0 := by
    rw [List.length_drop, h, Nat.add_sub_cancel_left, BitVec.ofNat_toNat, BitVec.setWidth_eq]
  rw [encodeBuffer, hcount, bytes32_le32_zero (by omega), List.take_append_drop]

/-- The bytes that a length field counts fit it. -/
theorem fitsLengthField_drop {t : Bytes} (h : t.length = 4 + (le32 t 0).toNat) :
    Bytes.fitsLengthField (t.drop 4) = true := by
  rw [Bytes.fitsLengthField, decide_eq_true_eq, List.length_drop, h, Nat.add_sub_cancel_left]
  exact (le32 t 0).isLt

/-- The operands of a transaction of the right length form an instruction whose bytes are those they were read from. -/
theorem operandBytes_operands {o : Opcode} {t : Bytes} (h : o.format.lengthRight (o.byte :: t) = true) :
    (o.operands (o.byte :: t)).operandBytes = t ∧ (o.operands (o.byte :: t)).wellFormed = true := by
  cases o with
  | sidDecode | hb2Decode | hdrDecode | msgBuild | frameDecode =>
    obtain ⟨-, hlen⟩ := (lengthRight_v _ t).mp h
    exact ⟨encodeBuffer_drop hlen, fitsLengthField_drop hlen⟩
  | sidPack | sidUnpack | sidEncode | hdrBuild =>
    rw [lengthRight_fixed (by decide)] at h
    refine ⟨?_, rfl⟩
    simp only [Opcode.operands, Instr.operandBytes, bytes16_le16, bytes32_le32]
    exact map_byteAt_range (Nat.succ.inj h)
  | hb2Pack | hb2Unpack | hb2Encode | hdrEncode | resolveKind | frameEncode =>
    rw [lengthRight_fixed (by decide)] at h
    exact ⟨map_byteAt_range (Nat.succ.inj h), rfl⟩

/-- Settles O58: what is decoded began with its opcode, and the rest of the transaction is its operands. -/
theorem encodeOfDecodeIsTheTransaction : Obligations.EncodeOfDecodeIsTheTransaction := by
  intro c i hd
  obtain ⟨o, t, rfl, hlen, rfl⟩ := decode_eq_instr hd
  obtain ⟨hbytes, hwf⟩ := operandBytes_operands hlen
  exact ⟨by rw [encode, Opcode.opcode_operands, hbytes], hwf⟩

end Sys2Proof
end

section
/-! What the port does not show (10_state.md R24): contents behind a valid bit of 0 reach no response and no visible register. -/

namespace Sys2Proof.Machine

namespace Block.SameVisible

variable {a b : Block}

theorem refl (b : Block) : b.SameVisible b := ⟨rfl, fun _ => rfl, rfl, fun _ => ⟨rfl, rfl, rfl⟩⟩

/-- `HDR` written alike. -/
theorem storeHdr (h : a.SameVisible b) (x : Header) :
    Block.SameVisible { a with hdr := x, hdrValid := true } { b with hdr := x, hdrValid := true } := by
  obtain ⟨-, -, hmv, hmsg⟩ := h
  exact ⟨rfl, fun _ => rfl, hmv, hmsg⟩

/-- The message register written alike. -/
theorem storeMsg (h : a.SameVisible b) (len : U32) (x : Header) (body : Bytes) :
    Block.SameVisible { a with msgLen := len, msgHdr := x, msgBody := body, msgValid := true }
      { b with msgLen := len, msgHdr := x, msgBody := body, msgValid := true } := by
  obtain ⟨hhv, hhdr, -, -⟩ := h
  exact ⟨hhv, hhdr, rfl, fun _ => ⟨rfl, rfl, rfl⟩⟩

end Block.SameVisible

/-- Outcomes at `s` and at `t` with one response, after which no visible register differs. -/
def VisiblyAlike (s t : State) (o o' : Host.Outcome State Fault Refusal) : Prop :=
  ∃ (b b' : Block) (r : Bytes), o = .next (s.answer b r) ∧ o' = .next (t.answer b' r) ∧ b.SameVisible b'

namespace VisiblyAlike

variable {s t : State} {o o' u u' : Host.Outcome State Fault Refusal}

theorem of_blocks {b b' : Block} {r : Bytes} (h : b.SameVisible b') :
    VisiblyAlike s t (.next (s.answer b r)) (.next (t.answer b' r)) := ⟨b, b', r, rfl, rfl, h⟩

theorem respond {st : Status} {payload : Bytes} (h : s.block.SameVisible t.block) :
    VisiblyAlike s t (respond st payload s) (respond st payload t) := of_blocks h

theorem raise {e : Status} {info : Bytes} (h : s.block.SameVisible t.block) :
    VisiblyAlike s t (raise e info s) (raise e info t) := of_blocks h

theorem ite {c : Prop} [Decidable c] (h : VisiblyAlike s t o o') (h' : VisiblyAlike s t u u') :
    VisiblyAlike s t (if c then o else u) (if c then o' else u') := by
  split
  · exact h
  · exact h'

/-- A reader of `HDR` sees the same header in both, or is refused in both. -/
theorem readHdr {rule rule' : Header → Host.Outcome State Fault Refusal} (h : s.block.SameVisible t.block)
    (hrule : ∀ x, VisiblyAlike s t (rule x) (rule' x)) : VisiblyAlike s t (readHdr s rule) (readHdr t rule') := by
  obtain ⟨hv, hhdr, -, -⟩ := id h
  cases hs : s.block.hdrValid with
  | false =>
    rw [readHdr_invalid hs, readHdr_invalid (hv.symm.trans hs)]
    exact raise h
  | true =>
    rw [readHdr_valid hs, readHdr_valid (hv.symm.trans hs), hhdr hs]
    exact hrule _

/-- A reader of the message register sees the same message in both, or is refused in both. -/
theorem readMsg {rule rule' : U32 → Header → Bytes → Host.Outcome State Fault Refusal} (h : s.block.SameVisible t.block)
    (hrule : ∀ len x body, VisiblyAlike s t (rule len x body) (rule' len x body)) :
    VisiblyAlike s t (readMsg s rule) (readMsg t rule') := by
  obtain ⟨-, -, hv, hmsg⟩ := id h
  cases hs : s.block.msgValid with
  | false =>
    rw [readMsg_invalid hs, readMsg_invalid (hv.symm.trans hs)]
    exact raise h
  | true =>
    obtain ⟨hlen, hhdr, hbody⟩ := hmsg hs
    rw [readMsg_valid hs, readMsg_valid (hv.symm.trans hs), hlen, hhdr, hbody]
    exact hrule _ _ _

end VisiblyAlike

/-- Every command answers two machines alike that differ in hidden contents only, and leaves them so. -/
theorem exec_visiblyAlike (i : Instr) {s t : State} (hp : s.params = t.params) (h : s.block.SameVisible t.block) :
    VisiblyAlike s t (exec i s) (exec i t) := by
  cases i with
  | sidPack | sidUnpack | sidEncode | hb2Pack | hb2Unpack | hb2Encode => exact .respond h
  | sidDecode =>
    rw [exec_sidDecode, exec_sidDecode, hp]
    exact .ite (.raise h) (.ite (.raise h) (.respond h))
  | hb2Decode =>
    rw [exec_hb2Decode, exec_hb2Decode, hp]
    exact .ite (.raise h) (.ite (.raise h) (.respond h))
  | hdrBuild =>
    rw [exec_hdrBuild, exec_hdrBuild]
    split
    · exact .raise h
    · exact .of_blocks (h.storeHdr _)
  | hdrDecode =>
    rw [exec_hdrDecode, exec_hdrDecode, hp]
    exact .ite (.raise h) (.ite (.raise h) (.of_blocks (h.storeHdr _)))
  | hdrEncode => exact VisiblyAlike.readHdr h fun _ => .respond h
  | resolveKind =>
    show VisiblyAlike s t (execResolveKind s) (execResolveKind t)
    refine .readHdr h fun x => ?_
    split
    · exact .raise h
    · exact .respond h
  | msgBuild body =>
    show VisiblyAlike s t (execMsgBuild body s) (execMsgBuild body t)
    rw [execMsgBuild, execMsgBuild, hp]
    exact .ite (.raise h) (.readHdr h fun _ => .of_blocks (h.storeMsg _ _ _))
  | frameEncode => exact VisiblyAlike.readMsg h fun _ _ _ => .respond h
  | frameDecode =>
    rw [exec_frameDecode, exec_frameDecode, hp]
    exact .ite (.raise h) (.ite (.raise h) (.ite (.raise h) (.of_blocks ((h.storeMsg _ _ _).storeHdr _))))

/-- Settles O40: both machines take the same input; a command answers them alike (`exec_visiblyAlike`), and a reset makes their
blocks equal. -/
theorem invalidContentsAreUnobservable : Obligations.InvalidContentsAreUnobservable := by
  rintro s t s' ⟨hp, hin, hresp, hblock⟩ h
  obtain ⟨hidle, rfl⟩ | ⟨rest, hreset, rfl⟩ | ⟨c, rest, hcmd, ⟨e, hd, hrej⟩ | ⟨i, hd, hex⟩⟩ := step_cases h
  · exact ⟨t, step_idle (hin.symm.trans hidle), hp, hin, hresp, hblock⟩
  · exact ⟨_, step_reset (hin.symm.trans hreset), hp, rfl, hresp, .refl _⟩
  · obtain rfl := Host.Outcome.next.inj hrej
    exact ⟨_, step_rejected (hin.symm.trans hcmd) hd, hp, rfl, by simp [hresp], hblock⟩
  · obtain ⟨b, b', r, hs, ht, hbb⟩ := exec_visiblyAlike i (s := acceptInput rest s) (t := acceptInput rest t) hp hblock
    obtain rfl := Host.Outcome.next.inj (hs.symm.trans hex)
    exact ⟨_, (step_instr (hin.symm.trans hcmd) hd).trans ht, hp, rfl, by simp [hresp], hbb⟩

end Sys2Proof.Machine
end

section
/-! What a step and a run depend on (20_memory.md R38, 70_reset_and_hazards.md R117): the parameters, the block and the input that
is taken; not the inputs behind it, and not the responses given so far. -/

namespace Sys2Proof.Machine

open Sys2Proof.Spec

/-- A block is its two registers with their valid bits. -/
theorem Block.eq_of_registers {a b : Block} (hhdr : headerOf a = headerOf b) (hmsg : messageOf a = messageOf b) : a = b := by
  obtain ⟨hhv, hh⟩ := headerOf_eq_iff.mp hhdr
  obtain ⟨hmv, hlen, hmh, hbody⟩ := messageOf_eq_iff.mp hmsg
  exact (Block.mk.injEq ..).mpr ⟨hhv, hh, hmv, hlen, hmh, hbody⟩

/-- What a command does to one machine it does to every machine of the same parameters and block. -/
theorem exec_uniform (i : Instr) (p : Params) (b : Block) :
    ∃ b' r, ∀ inputs responses, exec i ⟨p, b, inputs, responses⟩ = .next ⟨p, b', inputs, responses ++ [r]⟩ := by
  obtain ⟨b', r, hs, -⟩ := exec_hasEffect i ⟨p, b, [], []⟩
  refine ⟨b', r, fun inputs responses => ?_⟩
  obtain ⟨b₁, b₂, r', hs', ht, hhdr, hmsg⟩ :=
    exec_alike i (s := ⟨p, b, [], []⟩) (t := ⟨p, b, inputs, responses⟩) rfl (fun _ => rfl) (fun _ => rfl)
  obtain ⟨rfl, rfl⟩ := State.answer_inj (hs.symm.trans hs')
  rw [ht, Block.eq_of_registers (hhdr rfl) (hmsg rfl)]
  rfl

/-- What a step makes of the input it takes, it makes of it in every machine of the same parameters and block. -/
theorem step_uniform (p : Params) (b : Block) (x : Input) :
    ∃ b' added, ∀ rest responses, step ⟨p, b, x :: rest, responses⟩ = .next ⟨p, b', rest, responses ++ added⟩ := by
  cases x with
  | reset => exact ⟨Block.reset, [], fun rest responses => by rw [step_reset rfl, List.append_nil]; rfl⟩
  | command c =>
    cases hd : decode c with
    | rejected e => exact ⟨b, [[(decodeErrorStatus e).code]], fun rest responses => step_rejected rfl hd⟩
    | instr i =>
      obtain ⟨b', r, hex⟩ := exec_uniform i p b
      exact ⟨b', [r], fun rest responses => (step_instr rfl hd).trans (hex rest responses)⟩

/-- A run over the inputs that wait is the same whatever waits behind them. -/
theorem run_uniform_later (p : Params) (b : Block) (inputs : List Input) :
    ∃ b' added, ∀ later responses, Sys2Proof.core.run inputs.length ⟨p, b, inputs ++ later, responses⟩ =
      .next ⟨p, b', later, responses ++ added⟩ := by
  induction inputs generalizing b with
  | nil => exact ⟨b, [], fun later responses => by rw [List.append_nil]; rfl⟩
  | cons x rest ih =>
    obtain ⟨b₁, added₁, hstep⟩ := step_uniform p b x
    obtain ⟨b', added, hrun⟩ := ih b₁
    refine ⟨b', added₁ ++ added, fun later responses => ?_⟩
    rw [← List.append_assoc]
    exact (core_run_succ (hstep (rest ++ later) responses) _).trans (hrun later _)

/-- Settles O54: a run over the inputs that wait is the run with nothing behind them (`run_uniform_later`). -/
theorem laterInputsChangeNothingEarlier : Obligations.LaterInputsChangeNothingEarlier := by
  rintro ⟨p, b, inputs, responses⟩ later s' h
  obtain ⟨b', added, hrun⟩ := run_uniform_later p b inputs
  have halone := hrun [] responses
  rw [List.append_nil] at halone
  obtain rfl := Host.Outcome.next.inj (h.symm.trans halone)
  exact hrun later responses

/-- A run of any length is the same whatever has been answered before it. -/
theorem run_uniform_earlier (k : Nat) (p : Params) (b : Block) (inputs : List Input) :
    ∃ b' left added, ∀ responses, Sys2Proof.core.run k ⟨p, b, inputs, responses⟩ =
      .next ⟨p, b', left, responses ++ added⟩ := by
  induction k generalizing b inputs with
  | zero => exact ⟨b, inputs, [], fun responses => by rw [List.append_nil]; rfl⟩
  | succ k ih =>
    cases inputs with
    | nil =>
      obtain ⟨b', left, added, hrun⟩ := ih b []
      exact ⟨b', left, added, fun responses => (core_run_succ (step_idle rfl) k).trans (hrun responses)⟩
    | cons x rest =>
      obtain ⟨b₁, added₁, hstep⟩ := step_uniform p b x
      obtain ⟨b', left, added, hrun⟩ := ih b₁ rest
      refine ⟨b', left, added₁ ++ added, fun responses => ?_⟩
      rw [← List.append_assoc]
      exact (core_run_succ (hstep rest responses) k).trans (hrun _)

/-- A leaf codec command writes neither register and reads neither (R2). -/
theorem leafCodec_registers {i : Instr} (hi : isLeafCodec i = true) :
    mayWriteHdr i = false ∧ mayWriteMsg i = false ∧ readsHdr i = false ∧ i ≠ .frameEncode := by
  cases i with
  | sidPack | sidUnpack | sidEncode | sidDecode => exact ⟨rfl, rfl, rfl, nofun⟩
  | hb2Pack | hb2Unpack | hb2Encode | hb2Decode => exact ⟨rfl, rfl, rfl, nofun⟩
  | _ => cases hi

/-- A leaf codec command leaves the block as it was. -/
theorem block_of_leafCodec {i : Instr} (hi : isLeafCodec i = true) {s : State} {b : Block} {r : Bytes}
    (h : exec i s = .next (s.answer b r)) : b = s.block := by
  obtain ⟨hh, hm, -, -⟩ := leafCodec_registers hi
  obtain ⟨_, -, e⟩ := effect_of_exec h
  exact e.block_eq hh hm

/-- Settles O15: `exec_alike` gives the one response for a command that reads no register, and `Effect` the unchanged block. -/
theorem leafCodecsTouchNoRegister : Obligations.LeafCodecsTouchNoRegister := by
  intro i s t hi hp
  obtain ⟨-, -, hreads, hne⟩ := leafCodec_registers hi
  obtain ⟨b, b', r, hs, ht, -, -⟩ := exec_alike i hp (by simp [hreads]) fun h => absurd h hne
  obtain rfl : b = s.block := block_of_leafCodec hi hs
  obtain rfl : b' = t.block := block_of_leafCodec hi ht
  exact ⟨r, hs, ht⟩

/-- Settles O55: the leaf command's step adds its response and leaves the block (`leafCodecsTouchNoRegister`), and a run is the same
behind one response more (`run_uniform_earlier`). -/
theorem leafCommandMayFallAnywhere : Obligations.LeafCommandMayFallAnywhere := by
  rintro ⟨p, b, inputs, responses⟩ c i hd hi
  obtain ⟨r, hex, -⟩ := leafCodecsTouchNoRegister i ⟨p, b, inputs, responses⟩ ⟨p, b, inputs, responses⟩ hi rfl
  refine ⟨r, fun k => ?_⟩
  obtain ⟨b', left, added, hrun⟩ := run_uniform_earlier k p b inputs
  refine ⟨_, added, hrun responses, rfl, ?_⟩
  have hstep : step ⟨p, b, .command c :: inputs, responses⟩ = .next ⟨p, b, inputs, responses ++ [r]⟩ :=
    (step_instr rfl hd).trans hex
  rw [core_run_succ hstep, hrun, List.append_assoc]
  rfl

end Sys2Proof.Machine
end

section
/-! The frame of every command (10_state.md R15, R16, R20). -/

namespace Sys2Proof.Machine

open Sys2Proof.Spec

/-- Settles O36: `Effect` says which register a command writes, and a command appends one response. -/
theorem frameOfEveryCommand : Obligations.FrameOfEveryCommand := by
  intro i s s' h
  obtain ⟨r, heq, e⟩ := effect_of_exec h
  refine ⟨by rw [heq]; rfl, by rw [heq]; rfl, ⟨r, by rw [heq]; rfl⟩, ?readers, ?headerWriters, ?messageWriter⟩
  case readers =>
    rintro (hleaf | rfl | rfl | rfl)
    · obtain ⟨hh, hm, -, -⟩ := leafCodec_registers hleaf
      exact e.block_eq hh hm
    · exact e.block_eq rfl rfl
    · exact e.block_eq rfl rfl
    · exact e.block_eq rfl rfl
  case headerWriters =>
    rintro (⟨_, _, _, _, _, _, _, _, _, rfl⟩ | ⟨_, rfl⟩)
    · exact e.messageOf_eq rfl
    · exact e.messageOf_eq rfl
  case messageWriter =>
    rintro ⟨_, rfl⟩
    exact (headerOf_eq_iff.mp (e.headerOf_eq rfl)).symm

end Sys2Proof.Machine
end

section
/-! The header on its way through the block: the built form (10_state.md R21) and the relay of ten bytes (41_header.md R87). -/

namespace Sys2Proof.Machine

open Sys2Proof.Spec

/-- Every row of the dispatch table has the built form (R21, R80). -/
theorem hdrBuild_built (k : MessageKind) (sid dir dev : U16) (hb2 w stream fn : Byte) (sys : U32) :
    (hdrBuild k sid dir dev hb2 w stream fn sys).Built := by
  cases k with
  | data => exact ⟨rfl, .inl rfl⟩
  | selectReq | deselectReq | linktestReq | linktestRsp | separateReq =>
    exact ⟨rfl, .inr (.inl ⟨by simp [hdrBuild, MessageKind.sType], rfl, rfl, rfl⟩)⟩
  | selectRsp | deselectRsp => exact ⟨rfl, .inr (.inr (.inl ⟨by simp [hdrBuild, MessageKind.sType], rfl⟩))⟩
  | rejectReq => exact ⟨rfl, .inr (.inr (.inr rfl))⟩

section Effect

variable {p : Params} {b b' : Block} {r : Bytes}

/-- A `HDR_BUILD` that answers `OK` leaves a header of the built form with its kind as the S-Type. -/
theorem Effect.built_of_hdrBuild {kind : Byte} {sid dir dev : U16} {hb2 w stream fn : Byte} {sys : U32}
    (e : Effect p b (.hdrBuild kind sid dir dev hb2 w stream fn sys) b' r) (hr : r = [0x00]) :
    b'.hdr.Built ∧ b'.hdr.st = kind := by
  cases e with
  | refused _ _ _ hst => exact absurd hr (Status.refusal_ne_ok hst)
  | readOnly _ _ hh => cases hh
  | hdrBuild _ _ _ _ _ _ _ _ _ k hk =>
    obtain ⟨-, hst, -⟩ := hdrBuild_fixed k sid dir dev hb2 w stream fn sys
    exact ⟨hdrBuild_built .., hst.trans (MessageKind.sType_of_ofSType hk)⟩

/-- Of the commands that write `HDR`, only the two decoders may end the built form. -/
theorem Effect.keeps_built {i : Instr} (e : Effect p b i b' r) (hhdr : ∀ buf, i ≠ .hdrDecode buf)
    (hframe : ∀ buf, i ≠ .frameDecode buf) (h : b.hdr.Built) : b'.hdr.Built := by
  cases e with
  | refused => exact h
  | readOnly => exact h
  | hdrBuild => exact hdrBuild_built ..
  | hdrDecode buf => exact absurd rfl (hhdr buf)
  | msgBuild => exact h
  | frameDecode buf => exact absurd rfl (hframe buf)

end Effect

/-- Settles O24: every row of the table has the built form, and the effects of the other commands leave the header as it is. -/
theorem builtHeaderFormIsKept : Obligations.BuiltHeaderFormIsKept := by
  refine ⟨fun kind sid dir dev hb2 w stream fn sys s s' h => (effect_of_answers h).built_of_hdrBuild rfl,
    fun i s s' hhdr hframe hs h => ?kept⟩
  case kept =>
    obtain ⟨_, -, e⟩ := effect_of_exec h
    exact e.keeps_built hhdr hframe hs

/-- Settles O23: `HDR_DECODE` stores the header that the first ten bytes stand for; it is written as those ten bytes, alone and in the
frame of a message it was copied into. -/
theorem anyHeaderIsRelayed : Obligations.AnyHeaderIsRelayed := by
  intro b body s hge hle hbody
  have htake : hdrBytes (hdrDecode b) = b.take 10 := hdrBytes_hdrDecode hge
  refine ⟨_, _, _, ⟨hdrDecode_accepted hge hle, rfl⟩, ⟨?encoded, rfl⟩, ⟨msgBuild_valid hbody rfl, rfl⟩,
    answers_frameEncode rfl, htake⟩
  case encoded =>
    rw [hdrEncode_valid rfl, ← hdrBytes_eq_headerBytes, ← htake]
    rfl

end Sys2Proof.Machine
end

section
/-! The assembler's operands (30_encoding.md R62). -/

namespace Sys2Proof.Machine

open Sys2Proof.Spec

/-- A numeric operand is taken exactly as the value of its field. -/
@[simp] theorem AsmOperand.fit_eq_some {bits : Nat} {a : AsmOperand} {v : BitVec bits} :
    a.fit bits = some v ↔ a = .number v.toNat := by
  cases a with
  | number n =>
    simp only [AsmOperand.fit, AsmOperand.number.injEq]
    split_ifs with h
    · rw [Option.some.injEq, ← BitVec.toNat_inj, BitVec.toNat_ofNat, Nat.mod_eq_of_lt h]
    · simp only [false_iff]
      rintro rfl
      exact h v.isLt
  | bytes | kind => simp [AsmOperand.fit]

/-- A byte-string operand is taken exactly as written, when its length fits the field `n`. -/
@[simp] theorem AsmOperand.buffer_eq_some {a : AsmOperand} {b : Bytes} :
    a.buffer = some b ↔ a = .bytes b ∧ Bytes.fitsLengthField b = true := by
  cases a with
  | bytes c =>
    simp only [AsmOperand.buffer, AsmOperand.bytes.injEq]
    split_ifs with h
    · rw [Option.some.injEq]
      exact ⟨fun hc => ⟨hc, hc ▸ h⟩, And.left⟩
    · simp only [false_iff]
      rintro ⟨rfl, hb⟩
      exact h hb
  | number | kind => simp [AsmOperand.buffer]

/-- The `kind` operand is a number, taken as the value of its byte, or a mnemonic, taken as its S-Type. -/
theorem AsmOperand.kindByte_eq_some {a : AsmOperand} {v : Byte} :
    a.kindByte = some v ↔ a = .number v.toNat ∨ ∃ k : MessageKind, a = .kind k ∧ k.sType = v := by
  cases a with
  | kind k => simp [AsmOperand.kindByte]
  | number | bytes => simp [AsmOperand.kindByte]

@[simp] theorem AsmOperand.fit_number_toNat {bits : Nat} (v : BitVec bits) :
    (AsmOperand.number v.toNat).fit bits = some v := AsmOperand.fit_eq_some.mpr rfl

@[simp] theorem AsmOperand.kindByte_number_toNat (v : Byte) : (AsmOperand.number v.toNat).kindByte = some v :=
  AsmOperand.fit_number_toNat v

/-- `HDR_BUILD` depends on its `kind` operand only through the byte it stands for. -/
theorem assembleCommand_hdrBuild_congr {a a' : AsmOperand} (h : a.kindByte = a'.kindByte) (ops : List AsmOperand) :
    assembleCommand .hdrBuild (a :: ops) = assembleCommand .hdrBuild (a' :: ops) := by
  match ops with
  | [sid, dir, dev, hb2, w, stream, fn, sys] => simp only [assembleCommand, h]
  | [] | [_] | [_, _] | [_, _, _] | [_, _, _, _] | [_, _, _, _, _] | [_, _, _, _, _, _] | [_, _, _, _, _, _, _] => rfl
  | _ :: _ :: _ :: _ :: _ :: _ :: _ :: _ :: _ :: _ => rfl

/-- Every instruction that fits is assembled from its operands as written. -/
theorem assembleCommand_writtenOperands {i : Instr} (h : i.wellFormed = true) :
    assembleCommand i.opcode (writtenOperands i) = some i := by
  cases i with
  | sidPack | sidUnpack | sidEncode | hb2Pack | hb2Unpack | hb2Encode | hdrBuild =>
    simp [assembleCommand, writtenOperands, Instr.opcode]
  | sidDecode | hb2Decode | hdrDecode | msgBuild | frameDecode =>
    simp [assembleCommand, writtenOperands, Instr.opcode, AsmOperand.buffer_eq_some.mpr ⟨rfl, h⟩]
  | hdrEncode | resolveKind | frameEncode => rfl

/-- Operands taken for a command are those of a well-formed instruction of it as written, when none is a kind mnemonic. -/
theorem assembleCommand_eq_some {o : Opcode} {ops : List AsmOperand} {i : Instr} (hkind : ∀ k, AsmOperand.kind k ∉ ops)
    (h : assembleCommand o ops = some i) : i.opcode = o ∧ i.wellFormed = true ∧ ops = writtenOperands i := by
  unfold assembleCommand at h
  split at h
  all_goals
    simp only [bind, pure, Option.bind_eq_some_iff, Option.some.injEq, AsmOperand.fit_eq_some,
      AsmOperand.buffer_eq_some, AsmOperand.kindByte_eq_some, reduceCtorEq] at h
  -- Two numbers: `SID_PACK` and `HB2_PACK`.
  case h_1 | h_5 =>
    obtain ⟨_, rfl, _, rfl, rfl⟩ := h
    exact ⟨rfl, rfl, rfl⟩
  -- One number: the two `UNPACK` and the two `ENCODE` commands.
  case h_2 | h_3 | h_6 | h_7 =>
    obtain ⟨_, rfl, rfl⟩ := h
    exact ⟨rfl, rfl, rfl⟩
  -- One byte string: the commands of format V.
  case h_4 | h_8 | h_10 | h_13 | h_15 =>
    obtain ⟨_, ⟨rfl, hfits⟩, rfl⟩ := h
    exact ⟨rfl, hfits, rfl⟩
  -- `HDR_BUILD`.
  case h_9 =>
    obtain ⟨_, rfl | ⟨k, rfl, -⟩, _, rfl, _, rfl, _, rfl, _, rfl, _, rfl, _, rfl, _, rfl, _, rfl, rfl⟩ := h
    · exact ⟨rfl, rfl, rfl⟩
    · exact absurd List.mem_cons_self (hkind k)
  -- No operand: the commands of format N.
  case h_11 | h_12 | h_14 =>
    obtain rfl := h
    exact ⟨rfl, rfl, rfl⟩

/-- Settles O60: each operand is taken exactly as the value of its field (`AsmOperand.fit_eq_some`, `AsmOperand.buffer_eq_some`), and a
kind mnemonic stands for the byte that its number stands for. -/
theorem assemblerNeverTruncates : Obligations.AssemblerNeverTruncates :=
  ⟨fun _ h => assembleCommand_writtenOperands h, fun _ _ _ hkind h => assembleCommand_eq_some hkind h,
    fun k ops => assembleCommand_hdrBuild_congr (a := .kind k) (AsmOperand.kindByte_number_toNat k.sType).symm ops⟩

end Sys2Proof.Machine
end

section
/-! The invariants at reset (10_state.md R22, R23), and the input that a step takes (30_encoding.md R60). -/

namespace Sys2Proof.Machine

/-- Settles O39: after reset the body is empty and no message is valid. -/
theorem resetMeetsTheInvariants : Obligations.ResetMeetsTheInvariants := fun _ =>
  ⟨Nat.zero_le _, State.lengthInv_iff.mpr Block.lengthInv_reset⟩

/-- A table word is decoded as the transaction that its bits and the format's zero bytes make up. -/
theorem decodeTableWord_eq_some {nbits w : Nat} {i : Instr} (h : decodeTableWord nbits w = some i) :
    decode (tableBytes nbits w) = .instr i := by
  unfold decodeTableWord at h
  split at h
  next j hd => rw [hd, Option.some.inj h]
  · cases h

/-- Settles O50: the three clauses are the step's own cases; a transaction presented first is the one that is taken. -/
theorem stepRunsTheDecodedInstruction : Obligations.StepRunsTheDecodedInstruction := by
  refine ⟨fun s c i rest hin hd => step_instr hin hd, fun s hin => step_idle hin, fun s nbits w i hw => ?word⟩
  case word =>
    have hstep := step_instr (s := s.withFetchWord nbits w) rfl (decodeTableWord_eq_some hw)
    rwa [State.withFetchWord, acceptInput_presentNext] at hstep

end Sys2Proof.Machine
end
